-- ==== Sys2Proof/Word.lean ====
section
/-! DEFINITION. The plain word types of the packet decoder (spec/00_scope.md R9: bytes of 8 bits, `uN`
unsigned N-bit values) and the raw form of a presented packet buffer (spec/20_memory.md R51). -/

namespace Sys2Proof

/-- A byte, 8 bits (R9). -/
abbrev Byte := BitVec 8

/-- `u16` (R9). -/
abbrev U16 := BitVec 16

/-- `u32` (R9). -/
abbrev U32 := BitVec 32

/-- `u64` (R9). -/
abbrev U64 := BitVec 64

/-- A block index `b`, 0..11 (R10). -/
abbrev BlockIx := Fin 12

/-- A channel index `c`, 0..31 (R10). -/
abbrev ChanIx := Fin 32

/-- Byte memory as (address, byte) cells. The canonical form is `Memory.wf` in WellFormed.lean. -/
abbrev Memory := List Host.Cell

/-- A packet buffer: `len` bytes at the offsets 0..len-1 (R51). A byte at an offset below `len` that no
cell lists is 0; the bytes at `len` and beyond do not exist (log entry 7). -/
structure Buffer where
  len   : Nat
  cells : Memory
  deriving DecidableEq, Repr

/-- The buffer of length 0. -/
def Buffer.empty : Buffer := ⟨0, []⟩

end Sys2Proof
end

