-- ==== Sys2Proof/Config.lean ====
section
/-! DEFINITION. What is fixed for every instance (spec/00_scope.md R7) and the types of what the lifecycle owner
loads (R8, spec/10_state.md R27, R28). `TS_UNIT` (R8) and the one free value are
constants without a body: no proof can see what they are. -/

namespace Sys2Proof

/-- `PKT_LEN` (R7): bytes in a packet. -/
abbrev pktLen : Nat := 1206

/-- `BLOCK_LEN` (R7): bytes in a block, 2 + 2 + 32 × 3. -/
abbrev blockLen : Nat := 100

/-- `UNIT_LEN` (R7): bytes in a channel unit. -/
abbrev unitLen : Nat := 3

/-- `TRAILER_OFF` (R7): offset of the six trailing bytes. -/
abbrev trailerOff : Nat := 1200

/-- `RM_OFF` (R7): offset of the return-mode byte. -/
abbrev rmOff : Nat := 1204

/-- `FLAG_UPPER` (R7, R88). -/
abbrev flagUpper : U16 := 0xEEFF

/-- `FLAG_LOWER` (R7, R88). -/
abbrev flagLower : U16 := 0xDDFF

/-- `RM_STRONGEST` (R7, R89). -/
abbrev rmStrongest : Byte := 55

/-- `RM_LAST` (R7, R89). -/
abbrev rmLast : Byte := 56

/-- `RM_DUAL` (R7, R89). -/
abbrev rmDual : Byte := 57

/-- `ROT_MOD` (R7): hundredths of a degree per revolution. -/
abbrev rotMod : Nat := 36000

/-- A unit of time: `num / den` seconds. -/
structure TimeUnit where
  num : ℕ+
  den : ℕ+
  deriving DecidableEq, Repr, Inhabited

/-- The unit in seconds, an exact rational. -/
def TimeUnit.seconds (u : TimeUnit) : ℚ := (u.num : ℚ) / (u.den : ℚ)

/-- `TS_UNIT`, the unit of the timestamp field and of `DELAY` (R8): the spec leaves its value open (D11) and no operation
loads it (R251), so it is one constant about which nothing is known (log entry 25). -/
opaque Config.tsUnit : TimeUnit

/-- The free value of `ROT.STEP(r)` for an operand that is not reduced (DESIGN CHOICE, log entry 22): the `n`-th one drawn.
Nothing is known of it. -/
opaque Config.freeRotation : Nat → U16

/-- One of the two laser groupings (R16, R90). -/
inductive Bank where
  | upper
  | lower
  deriving DecidableEq, Repr

/-- A table entry per bank. -/
structure PerBank (α : Type) where
  upper : α
  lower : α
  deriving DecidableEq, Repr

/-- An `AZ_CORR` entry: a signed number of hundredths of a degree in −35999..35999 (R8, R28). Other values cannot
be expressed, as R251 asks. -/
abbrev AzCorr := { v : Int // -35999 ≤ v ∧ v ≤ 35999 }

/-- The correction 0. -/
def AzCorr.zero : AzCorr := ⟨0, by decide⟩

/-- Everything `CFG.LOAD` loads (R27, R28, R251). The tables are total over their index tuples (R52). -/
structure Cfg where
  /-- `EPS`, hundredths of a degree: any `u16` (R27). -/
  eps     : U16
  /-- `DELAY(b, bank, c)`: 768 entries in `TS_UNIT` (R28). -/
  delay   : Vector (PerBank (Vector U32 32)) 12
  /-- `AZ_CORR(bank, c)`: 64 entries (R28). -/
  azCorr  : PerBank (Vector AzCorr 32)
  /-- `LASER_ID(bank, c)`: 64 entries (R28). -/
  laserId : PerBank (Vector Byte 32)
  deriving DecidableEq, Repr

/-- The default `LASER_ID` table (R8, R214): `c` for the upper bank, `32 + c` for the lower. -/
def defaultLaserId : PerBank (Vector Byte 32) :=
  ⟨Vector.ofFn fun c : ChanIx => BitVec.ofNat 8 c.val, Vector.ofFn fun c : ChanIx => BitVec.ofNat 8 (32 + c.val)⟩

/-- DESIGN CHOICE (log entry 3): the configuration right after power-on, which R30 leaves unspecified: zeros, and
the spec's default `LASER_ID` table. -/
def Cfg.powerOn : Cfg where
  eps := 0
  delay := Vector.replicate 12 ⟨Vector.replicate 32 0, Vector.replicate 32 0⟩
  azCorr := ⟨Vector.replicate 32 AzCorr.zero, Vector.replicate 32 AzCorr.zero⟩
  laserId := defaultLaserId

end Sys2Proof
end

