-- ==== Sys2Proof/Syntax.lean ====
section
/-! DEFINITION. The packet as fields (spec/30_encoding.md R80 to R84), the 25 named operations (R98) with their typed
operands, and the requests that reach an instance (spec/70_reset_and_hazards.md R306). -/

namespace Sys2Proof

/-- CHANNEL UNIT (R83). -/
structure ChannelUnit where
  dist : U16
  refl : Byte
  deriving DecidableEq, Repr

/-- BLOCK (R82): header and 32 channel units. -/
structure Block where
  flag  : U16
  rot   : U16
  units : Vector ChannelUnit 32
  deriving DecidableEq, Repr

/-- PACKET (R81, R84): 12 blocks and the trailer, as raw fields. -/
structure Packet where
  blocks    : Vector Block 12
  ts        : U32
  rmcode    : Byte
  factoryHi : Byte
  deriving DecidableEq, Repr

/-- The named operations (R98), one constructor per mnemonic of spec/opcode_table.json (several rows of one mnemonic are
the code points or cases of one operation). -/
inductive Instr where
  /-- `PKT.DECODE(len, B)` (R230); the buffer carries its length. -/
  | pktDecode (buf : Buffer)
  /-- `PKT.CHECKLEN(len)` (R110). -/
  | pktChecklen (len : Nat)
  /-- `PKT.FLAG(b)` (R111). -/
  | pktFlag (b : BlockIx)
  /-- `PKT.ROT(b)` (R112). -/
  | pktRot (b : BlockIx)
  /-- `PKT.DIST(b, c)` (R113). -/
  | pktDist (b : BlockIx) (c : ChanIx)
  /-- `PKT.REFL(b, c)` (R114). -/
  | pktRefl (b : BlockIx) (c : ChanIx)
  /-- `PKT.TS` (R115). -/
  | pktTs
  /-- `PKT.RMCODE` (R116). -/
  | pktRmcode
  /-- `PKT.FACTORY` (R117). -/
  | pktFactory
  /-- `BLK.DECODE(b)` (R130). -/
  | blkDecode (b : BlockIx)
  /-- `BLK.BANK(b)` (R131). -/
  | blkBank (b : BlockIx)
  /-- `BLK.CHANNELS(b)` (R133). -/
  | blkChannels (b : BlockIx)
  /-- `RM.RESOLVE` (R151). -/
  | rmResolve
  /-- `RM.PAIR` (R156). -/
  | rmPair
  /-- `RM.TAG(b, c)` (R159). -/
  | rmTag (b : BlockIx) (c : ChanIx)
  /-- `ROT.REDUCE(rot_raw)` (R181). -/
  | rotReduce (raw : U16)
  /-- `ROT.STEP(r)` (R182), `r` a reduced rotation; what an unreduced one does is log entry 22. -/
  | rotStep (r : U16)
  /-- `PT.DIST(b, c)` (R211). -/
  | ptDist (b : BlockIx) (c : ChanIx)
  /-- `PT.AZ(b, c)` (R212). -/
  | ptAz (b : BlockIx) (c : ChanIx)
  /-- `PT.TIME(b, c)` (R213). -/
  | ptTime (b : BlockIx) (c : ChanIx)
  /-- `PT.LASER(b, c)` (R214). -/
  | ptLaser (b : BlockIx) (c : ChanIx)
  /-- `PT.EMIT(b, c)` (R218). -/
  | ptEmit (b : BlockIx) (c : ChanIx)
  /-- `SESSION.RESET` (R250). -/
  | sessionReset
  /-- `CFG.LOAD(EPS, DELAY, AZ_CORR, LASER_ID)` (R251). -/
  | cfgLoad (cfg : Cfg)
  /-- `STATUS.READ` (R252). -/
  | statusRead
  deriving DecidableEq, Repr

/-- What can reach an instance from outside: exactly the four interactions of R98 and R306. Presenting a buffer of any
length and content is `PKT.DECODE` (R230 and the table's note on it); the other three have no encoding (R254) and are named.
The internal operations are in no request: they are the steps of a transaction. -/
inductive Request where
  /-- The transport collaborator presents a raw buffer with its true length (R51, R305). -/
  | present (bytes : List Byte)
  /-- `SESSION.RESET`. -/
  | sessionReset
  /-- `CFG.LOAD`. -/
  | cfgLoad (cfg : Cfg)
  /-- `STATUS.READ`. -/
  | statusRead
  deriving DecidableEq, Repr

end Sys2Proof
end

