-- ==== Sys2Proof/WellFormed.lean ====
section
/-! DEFINITION. Which memories are in canonical form, and which operations the outside may request. Block and channel
indexes and `AZ_CORR` entries out of range cannot be written down at all. -/

namespace Sys2Proof

/-- Cells at strictly rising addresses in `lo..len-1`, none holding the byte an unlisted address reads as (0). -/
def Memory.wfFrom (lo len : Nat) : Memory → Bool
  | [] => true
  | (a, v) :: rest => decide (lo ≤ a) && decide (a < len) && decide (v ≠ 0) && Memory.wfFrom (a + 1) len rest

/-- The canonical form of the memory of a buffer of `len` bytes. -/
def Memory.wf (len : Nat) (m : Memory) : Bool := Memory.wfFrom 0 len m

/-- A buffer in canonical form: equal contents are equal data. -/
def Buffer.wf (buf : Buffer) : Bool := Memory.wf buf.len buf.cells

/-- The instruction is in the form the decoder gives it: the buffer of `PKT.DECODE` is canonical. Every other operand has
all values of its type. -/
def Instr.wf : Instr → Bool
  | .pktDecode buf => buf.wf
  | .pktChecklen _ => true
  | .pktFlag _ => true
  | .pktRot _ => true
  | .pktDist _ _ => true
  | .pktRefl _ _ => true
  | .pktTs => true
  | .pktRmcode => true
  | .pktFactory => true
  | .blkDecode _ => true
  | .blkBank _ => true
  | .blkChannels _ => true
  | .rmResolve => true
  | .rmPair => true
  | .rmTag _ _ => true
  | .rotReduce _ => true
  | .rotStep _ => true
  | .ptDist _ _ => true
  | .ptAz _ _ => true
  | .ptTime _ _ => true
  | .ptLaser _ _ => true
  | .ptEmit _ _ => true
  | .sessionReset => true
  | .cfgLoad _ => true
  | .statusRead => true

/-- The four operations that can be requested from outside (R98, R253). -/
def Instr.external : Instr → Bool
  | .pktDecode _ => true
  | .pktChecklen _ => false
  | .pktFlag _ => false
  | .pktRot _ => false
  | .pktDist _ _ => false
  | .pktRefl _ _ => false
  | .pktTs => false
  | .pktRmcode => false
  | .pktFactory => false
  | .blkDecode _ => false
  | .blkBank _ => false
  | .blkChannels _ => false
  | .rmResolve => false
  | .rmPair => false
  | .rmTag _ _ => false
  | .rotReduce _ => false
  | .rotStep _ => false
  | .ptDist _ _ => false
  | .ptAz _ _ => false
  | .ptTime _ _ => false
  | .ptLaser _ _ => false
  | .ptEmit _ _ => false
  | .sessionReset => true
  | .cfgLoad _ => true
  | .statusRead => true

end Sys2Proof
end

