-- ==== Sys2Proof/Decode.lean ====
section
/-! DEFINITION. The Packet Layout Model: bytes to fields (spec/20_memory.md R54 to R61, spec/30_encoding.md R80 to R86,
spec/40_packet_layout.md R111 to R117), requests to instructions, and the encoders back. -/

namespace Sys2Proof

/-! ### Bytes of a buffer -/

/-- The byte the cells hold at `o`; 0 where none is listed. -/
def Memory.byteAt : Memory → Nat → Byte
  | [], _ => 0
  | (a, v) :: rest, o => if a = o then v else Memory.byteAt rest o

/-- `B[o]` (R10). -/
def Buffer.byte (buf : Buffer) (o : Nat) : Byte := buf.cells.byteAt o

/-- `MemRead(o, n)` (R10, R54): the `n` bytes from offset `o`, the byte at the lower offset less significant. Any
offset is allowed (R56). Whether the bytes exist is checked by the caller. -/
def memRead (buf : Buffer) (o : Nat) : Nat → Nat
  | 0 => 0
  | n + 1 => (buf.byte o).toNat + 256 * memRead buf (o + 1) n

/-- The cells of a run of bytes that starts at offset `o`: zeros are not listed. -/
def cellsFrom (o : Nat) : List Byte → Memory
  | [] => []
  | v :: rest => if v = 0 then cellsFrom (o + 1) rest else (o, v) :: cellsFrom (o + 1) rest

/-- The buffer that a presented byte sequence is (R51). -/
def Buffer.ofBytes (bytes : List Byte) : Buffer := ⟨bytes.length, cellsFrom 0 bytes⟩

/-- The bytes of a buffer, in order. -/
def Buffer.toBytes (buf : Buffer) : List Byte := (List.range buf.len).map buf.byte

/-! ### Field offsets, R61 and R85 -/

/-- `off_flag(b)`. -/
def offFlag (b : BlockIx) : Nat := blockLen * b.val

/-- `off_rot(b)`. -/
def offRot (b : BlockIx) : Nat := blockLen * b.val + 2

/-- `off_dist(b, c)`. -/
def offDist (b : BlockIx) (c : ChanIx) : Nat := blockLen * b.val + 4 + unitLen * c.val

/-- `off_refl(b, c)`. -/
def offRefl (b : BlockIx) (c : ChanIx) : Nat := blockLen * b.val + 6 + unitLen * c.val

/-- `off_fac`. -/
def offFactory : Nat := 1205

/-! ### Fields, R86 -/

/-- `PKT.FLAG(b)` as a function of the buffer (R111). -/
def Buffer.flag (buf : Buffer) (b : BlockIx) : U16 := BitVec.ofNat 16 (memRead buf (offFlag b) 2)

/-- `PKT.ROT(b)` as a function of the buffer, not reduced (R112). -/
def Buffer.rot (buf : Buffer) (b : BlockIx) : U16 := BitVec.ofNat 16 (memRead buf (offRot b) 2)

/-- `PKT.DIST(b, c)` as a function of the buffer (R113). -/
def Buffer.dist (buf : Buffer) (b : BlockIx) (c : ChanIx) : U16 := BitVec.ofNat 16 (memRead buf (offDist b c) 2)

/-- `PKT.REFL(b, c)` as a function of the buffer (R114). -/
def Buffer.refl (buf : Buffer) (b : BlockIx) (c : ChanIx) : Byte := BitVec.ofNat 8 (memRead buf (offRefl b c) 1)

/-- `PKT.TS` as a function of the buffer (R115). -/
def Buffer.ts (buf : Buffer) : U32 := BitVec.ofNat 32 (memRead buf trailerOff 4)

/-- `PKT.RMCODE` as a function of the buffer (R116). -/
def Buffer.rmcode (buf : Buffer) : Byte := BitVec.ofNat 8 (memRead buf rmOff 1)

/-- `PKT.FACTORY` as a function of the buffer (R117). -/
def Buffer.factory (buf : Buffer) : Byte := BitVec.ofNat 8 (memRead buf offFactory 1)

/-! ### The whole packet as fields -/

/-- Channel unit `c` of block `b` (R83). -/
def Buffer.channelUnit (buf : Buffer) (b : BlockIx) (c : ChanIx) : ChannelUnit := ⟨buf.dist b c, buf.refl b c⟩

/-- Block `b` as fields (R82). -/
def Buffer.block (buf : Buffer) (b : BlockIx) : Block :=
  ⟨buf.flag b, buf.rot b, Vector.ofFn fun c => buf.channelUnit b c⟩

/-- The fields of a well-formed packet; a buffer of another length is not a packet and none of its bytes is
interpreted (R80, R95). -/
def Packet.ofBuffer (buf : Buffer) : Option Packet :=
  if buf.len = pktLen then some ⟨Vector.ofFn fun b => buf.block b, buf.ts, buf.rmcode, buf.factory⟩ else none

/-- The `n` low bytes of a number, the least significant first (R54). -/
def leBytes : Nat → Nat → List Byte
  | 0, _ => []
  | n + 1, v => BitVec.ofNat 8 v :: leBytes n (v / 256)

/-- The three bytes of a channel unit: distance, then reflectivity (R83). -/
def ChannelUnit.bytes (u : ChannelUnit) : List Byte := leBytes 2 u.dist.toNat ++ [u.refl]

/-- The 100 bytes of a block (R82). -/
def Block.bytes (k : Block) : List Byte :=
  leBytes 2 k.flag.toNat ++ leBytes 2 k.rot.toNat ++ k.units.toList.flatMap ChannelUnit.bytes

/-- The 1206 bytes of a packet (R81, R84). -/
def Packet.bytes (p : Packet) : List Byte :=
  p.blocks.toList.flatMap Block.bytes ++ leBytes 4 p.ts.toNat ++ [p.rmcode, p.factoryHi]

/-! ### Requests and instructions -/

/-- The instruction a request stands for. Every presented buffer is a `PKT.DECODE` (R98, R230), so no request is turned
away. -/
def decode : Request → Instr
  | .present bytes => .pktDecode (Buffer.ofBytes bytes)
  | .sessionReset => .sessionReset
  | .cfgLoad cfg => .cfgLoad cfg
  | .statusRead => .statusRead

/-- The request that asks for an instruction; `none` for an internal operation, which nothing outside can ask for (R98). -/
def encode : Instr → Option Request
  | .pktDecode buf => some (.present buf.toBytes)
  | .pktChecklen _ => none
  | .pktFlag _ => none
  | .pktRot _ => none
  | .pktDist _ _ => none
  | .pktRefl _ _ => none
  | .pktTs => none
  | .pktRmcode => none
  | .pktFactory => none
  | .blkDecode _ => none
  | .blkBank _ => none
  | .blkChannels _ => none
  | .rmResolve => none
  | .rmPair => none
  | .rmTag _ _ => none
  | .rotReduce _ => none
  | .rotStep _ => none
  | .ptDist _ _ => none
  | .ptAz _ _ => none
  | .ptTime _ _ => none
  | .ptLaser _ _ => none
  | .ptEmit _ _ => none
  | .sessionReset => some (.sessionReset)
  | .cfgLoad cfg => some (.cfgLoad cfg)
  | .statusRead => some (.statusRead)

/-! ### Bits of the opcode table

The table gives bits to code points, not to operations (R254): the 16-bit flag that `BLK.BANK` compares, the 8-bit
return-mode byte that `RM.RESOLVE` compares, the 16-bit distance that `PT.EMIT` compares with 0. A word of the table is
therefore read as a PART of a packet, told apart by its length and, for two bytes, by its value (DESIGN CHOICE, log
entry 9). -/

/-- The operation that a part of a packet is read by: return-mode byte, flag or zero distance, channel unit, block
header, trailer, block. Anything else is a whole presented buffer. -/
def decodeFragment (bytes : List Byte) : Instr :=
  match bytes.length with
  | 1 => .rmResolve
  | 2 => if bytes.all (· = 0) then .ptEmit 0 0 else .blkBank 0
  | 3 => .ptEmit 0 0
  | 4 => .blkBank 0
  | 6 => .rmResolve
  | 100 => .blkDecode 0
  | _ => .pktDecode (Buffer.ofBytes bytes)

/-- Where a part of a packet stands in the packet (R61): the return-mode byte at 1204, a trailer at 1200, a distance or
channel unit (with an upper flag before it, so that it stands in a valid block) at 4, the rest at 0. -/
def fragmentCells (bytes : List Byte) : Memory :=
  match bytes.length with
  | 1 => cellsFrom rmOff bytes
  | 2 => if bytes.all (· = 0) then cellsFrom 0 (leBytes 2 flagUpper.toNat) else cellsFrom 0 bytes
  | 3 => cellsFrom 0 (leBytes 2 flagUpper.toNat) ++ cellsFrom 4 bytes
  | 6 => cellsFrom trailerOff bytes
  | _ => cellsFrom 0 bytes

/-- The packet, otherwise zero, that holds a part at its place. -/
def fragmentPacket (bytes : List Byte) : Buffer := ⟨pktLen, fragmentCells bytes⟩

/-- The instruction the decoder reads from `nbits` bits (whole bytes, rounded up) numbered as the opcode table numbers
them: the first byte is bits 7..0. -/
def decodeTableWord (nbits w : Nat) : Option Instr := some (decodeFragment (leBytes ((nbits + 7) / 8) w))

end Sys2Proof
end

