-- ==== Sys2Proof/Machine/State.lean ====
section
/-! DEFINITION. What an instance holds (spec/10_state.md, INVENTORY.md '## State'), the records it hands out
(spec/30_encoding.md R90, R101, spec/44_point_assembler.md R210, spec/60_exceptions.md R270, R272), and its state after
reset (spec/70_reset_and_hazards.md R300, R301). -/

namespace Sys2Proof.Machine

/-! ### Closed enumerations, R90 -/

/-- The coarse mode of a packet (R150). -/
inductive Coarse where
  | strongest
  | last
  | dual
  | unknown
  deriving DecidableEq, Repr

/-- ReturnMode, the tag of a point (R150). -/
inductive Tag where
  | singleStrongest
  | singleLast
  | dualStrongestFirst
  | dualStrongestLast
  | dualWeakFirst
  | dualWeakLast
  | dualOnly
  | invalid
  deriving DecidableEq, Repr

/-- The role of a block in a DUAL packet (R155). -/
inductive Role where
  | first
  | last
  | only
  deriving DecidableEq, Repr

/-- The four cases of `ROT.STEP` (R182). -/
inductive TrackCase where
  | init
  | fwd
  | wrap
  | anom
  deriving DecidableEq, Repr

/-- The three error kinds with the information each records (R270). -/
inductive Error where
  | malformedPacket (len : Nat)
  | unknownBankFlag (b : BlockIx) (flag : U16)
  | unknownReturnMode (k : Byte)
  deriving DecidableEq, Repr

/-! ### Records handed out -/

/-- The STATUS record of one packet (R272). -/
structure Status where
  len         : Nat
  malformed   : Bool
  unknownMode : Bool
  rmCode      : Byte
  coarse      : Coarse
  /-- Bit `b` for block `b`. -/
  badBank     : BitVec 12
  badFlag     : Vector U16 12
  baseTs      : U32
  nPoints     : Nat
  deriving DecidableEq, Repr

/-- `st <- STATUS with every field 0 / empty; st.len <- len` (R230). The coarse mode of code 0 is STRONGEST (R90, R272). -/
def Status.start (len : Nat) : Status where
  len := len
  malformed := false
  unknownMode := false
  rmCode := 0
  coarse := .strongest
  badBank := 0
  badFlag := Vector.replicate 12 0
  baseTs := 0
  nPoints := 0

/-- A POINT record (R210). -/
structure Point where
  channel   : ChanIx
  laserId   : Byte
  bank      : Bank
  distRaw   : U16
  refl      : Byte
  /-- Hundredths of a degree, 0..35999. -/
  azCdeg    : U16
  tOffset   : U32
  timestamp : U64
  tag       : Tag
  deriving DecidableEq, Repr

/-- What the sink receives for one packet (R53). -/
structure Delivery where
  status : Status
  points : List Point
  deriving DecidableEq, Repr

/-- What `BLK.DECODE` hands on for a valid block (R130): the bank, the raw rotation (R132), the 32 units. -/
structure BlockData where
  bank   : Bank
  rotRaw : U16
  units  : Vector ChannelUnit 32
  deriving DecidableEq, Repr

/-- The value an operation returns to whoever asked for it. -/
inductive Answer where
  /-- The operation returns nothing here. -/
  | nothing
  /-- `PKT.CHECKLEN`: whether the length passed. -/
  | lengthOk (ok : Bool)
  | byte (v : Byte)
  | half (v : U16)
  | word (v : U32)
  /-- `BLK.BANK`. -/
  | bank (v : Option Bank)
  /-- `BLK.CHANNELS`. -/
  | units (v : Vector ChannelUnit 32)
  /-- `BLK.DECODE`: `none` is *invalid*. -/
  | block (v : Option BlockData)
  | coarse (v : Coarse)
  /-- `RM.PAIR`: the role of each block. -/
  | roles (v : Vector Role 12)
  | tag (v : Tag)
  /-- `PT.TIME`. -/
  | time (tOffset : U32) (timestamp : U64)
  /-- `PT.LASER`. -/
  | laser (channel : ChanIx) (laserId : Byte)
  /-- `PT.EMIT`: the record appended, if one was. -/
  | emitted (p : Option Point)
  /-- `STATUS.READ`: `(ROT.valid, ROT.last or none, ROT.rev)`; `ROT.valid` is whether `last` is present. -/
  | rotation (valid : Bool) (last : Option U16) (rev : U64)
  deriving DecidableEq, Repr

/-! ### State -/

/-- RotationState (R20): `ROT.valid` and `ROT.last` as one option (R22), and `ROT.rev` (R23). -/
structure Rot where
  last : Option U16
  rev  : U64
  deriving DecidableEq, Repr

/-- `ROT.valid` (R21). -/
def Rot.valid (r : Rot) : Bool := r.last.isSome

/-- RotationState after a reset (R30, R250). -/
def Rot.reset : Rot := ⟨none, 0⟩

/-- A transaction in progress: the presented packet buffer (R51), the STATUS record (R272) and the output list (R224) it
is filling, the current azimuth, the result of its latest `ROT.STEP` (R182), and the internal operations still to perform
one at a time (log entry 4). -/
structure Txn where
  buf   : Buffer
  st    : Status
  out   : List Point
  azCur : U16
  todo  : List Instr
  deriving DecidableEq, Repr

/-- A transaction on `buf` at its start (R224, R230). The azimuth before the first `ROT.STEP` is never used by
`PKT.DECODE`; 0 is a DESIGN CHOICE (log entry 4). -/
def Txn.start (buf : Buffer) : Txn := ⟨buf, Status.start buf.len, [], 0, []⟩

/-- One decoder instance. -/
structure State where
  /-- `ROT.valid`, `ROT.last`, `ROT.rev` (R20). -/
  rot     : Rot
  /-- `EPS` and the three tables (R27, R28). -/
  cfg     : Cfg
  /-- The transaction in progress; `none` between transactions (R24, R29, R30). -/
  txn     : Option Txn
  /-- What was delivered, oldest first; never read back (R53). The model's own field (log entry 2). -/
  sink    : List Delivery
  /-- What the latest operation returned. The model's own field (log entry 2). -/
  answer  : Answer
  /-- The requests handed over and not yet taken, oldest first. The model's own field (log entry 2). -/
  pending : List Request
  /-- How many free values were drawn. The model's own field (log entry 22); no statement rests on its value. -/
  drawn   : Nat
  deriving DecidableEq, Repr

/-- After power-on, which is the same event as `SESSION.RESET` for the `ROT` registers (R300, R301). The configuration is
the value named in log entry 3 (DESIGN CHOICE); no transaction exists; nothing was delivered, requested or drawn (the model's
own fields, log entries 2 and 22). -/
def State.reset : State where
  rot := Rot.reset
  cfg := Cfg.powerOn
  txn := none
  sink := []
  answer := .nothing
  pending := []
  drawn := 0

/-! ### Stops -/

/-- Why the machine stops with a fault. -/
inductive Fault where
  /-- Raised by the internal operations that read the packet, when no transaction is in progress or its buffer is not 1206
  bytes: "an accessor is evaluated only inside a transaction whose PKT.CHECKLEN passed" (R118); a byte outside the buffer
  does not exist (R56). Safe: the block never does this. -/
  | noPacket
  /-- Raised by the internal operations whose operand is "a valid block" (BLK.CHANNELS, RM.TAG, PT.AZ, PT.TIME, PT.LASER),
  on a block with an unknown flag: "its rotation and channel units are not used by any other rule" (R130). Safe: the block
  never does this. -/
  | invalidBlock
  deriving DecidableEq, Repr

/-- Why an operation is refused. -/
inductive Refusal where
  /-- Raised by exec's arm of an instruction without a meaning; no arm does so now. Safe. -/
  | notModelled (mnemonic : String)
  /-- Raised by the four external operations while a transaction is in progress: R310 says the machine has no step for it
  (R65, R282). Safe. -/
  | transactionInProgress
  deriving DecidableEq, Repr

/-- The outcome of an operation. -/
abbrev Result := Host.Outcome State Fault Refusal

end Sys2Proof.Machine
end

