-- ==== Sys2Proof/Machine/Flags.lean ====
section
/-! DEFINITION. The block has no condition codes (spec/10_state.md R26). Its flags are the bits of the STATUS record
(spec/60_exceptions.md R272), and this file computes them: one recording operation for the three errors (R270, R278), the
STATUS read as events, and the numeric codes of spec/30_encoding.md R90. -/

namespace Sys2Proof.Machine

/-- `raise E(info)` on a STATUS record (R10, R278): the error's bit and its information. Nothing is saved, no mode
changes, and there is no return from an error (R279). -/
def Status.record (e : Error) (st : Status) : Status :=
  match e with
  | .malformedPacket len => { st with malformed := true, len := len }
  | .unknownBankFlag b f =>
    { st with badBank := st.badBank ||| BitVec.twoPow 12 b.val, badFlag := st.badFlag.set b.val f }
  | .unknownReturnMode k => { st with unknownMode := true, rmCode := k }

/-- A packet is error-free iff `malformed = 0`, `unknown_mode = 0` and `bad_bank = 0` (R272). -/
def Status.errorFree (st : Status) : Bool := !st.malformed && !st.unknownMode && decide (st.badBank = 0)

/-- The STATUS record as a list of events (R272). -/
def Status.events (st : Status) : List Error :=
  if st.malformed then [.malformedPacket st.len]
  else
    ((List.finRange 12).filter fun b => st.badBank.getLsbD b.val).map (fun b => .unknownBankFlag b st.badFlag[b])
      ++ (if st.unknownMode then [.unknownReturnMode st.rmCode] else [])

/-- Bank codes (R90). -/
def bankCode : Bank → Nat
  | .upper => 0
  | .lower => 1

/-- Coarse mode codes (R90). -/
def coarseCode : Coarse → Nat
  | .strongest => 0
  | .last => 1
  | .dual => 2
  | .unknown => 3

/-- Tag codes (R90). -/
def tagCode : Tag → Nat
  | .singleStrongest => 0
  | .singleLast => 1
  | .dualStrongestFirst => 2
  | .dualStrongestLast => 3
  | .dualWeakFirst => 4
  | .dualWeakLast => 5
  | .dualOnly => 6
  | .invalid => 7

/-- Error cause codes (R90, R270). -/
def errorCode : Error → Nat
  | .malformedPacket _ => 1
  | .unknownBankFlag _ _ => 2
  | .unknownReturnMode _ => 3

end Sys2Proof.Machine
end

