-- ==== Sys2Proof/Machine/Operands.lean ====
section
/-! DEFINITION. Operands derived from the packet (spec/30_encoding.md R87) and looked up in the configuration
(spec/20_memory.md R52): bank, reduced rotation, coarse mode, roles, tag, table entries, the fields of a point. All are
functions of their arguments (R58, R163, R232). -/

namespace Sys2Proof

open Machine

/-! ### Bank and channel units -/

/-- The bank a flag value names: all 16 bits are compared (R88, R131). -/
def Machine.bankOfFlag (f : U16) : Option Bank :=
  if f = flagUpper then some .upper else if f = flagLower then some .lower else none

/-- `bank(b)` (R87). -/
def Buffer.bank (buf : Buffer) (b : BlockIx) : Option Bank := bankOfFlag (buf.flag b)

/-- `valid(b)`: the flag is one of the two sentinels (R17). -/
def Buffer.valid (buf : Buffer) (b : BlockIx) : Bool := (buf.bank b).isSome

/-- The 32 channel units of block `b` (R133). -/
def Buffer.units (buf : Buffer) (b : BlockIx) : Vector ChannelUnit 32 := Vector.ofFn fun c => buf.channelUnit b c

/-! ### Rotation -/

/-- `ROT.REDUCE` (R181). -/
def Machine.reduceRotation (raw : U16) : U16 := BitVec.ofNat 16 (raw.toNat % rotMod)

/-- The reduced rotation `r(b)` (R87). -/
def Buffer.reduced (buf : Buffer) (b : BlockIx) : U16 := reduceRotation (buf.rot b)

/-! ### Return mode -/

/-- The coarse mode a return-mode code names: all 8 bits are compared (R89, R151). -/
def Machine.coarseOfCode (k : Byte) : Coarse :=
  if k = rmStrongest then .strongest else if k = rmLast then .last else if k = rmDual then .dual else .unknown

/-- What pairing looks at in a block: `none` for an invalid one, else its bank and reduced rotation (R156). -/
abbrev Machine.PairKey := Option (Bank × U16)

/-- "both are valid, both carry the same bank and both have the same reduced rotation" (R156). -/
def Machine.pairs (x y : PairKey) : Bool := x.isSome && decide (x = y)

/-- The scan of R156 over the blocks from the first one not yet looked at: a block pairs with the block right after it, and
the scan then continues behind the pair; otherwise it continues at the next block. -/
def Machine.scanRoles : List PairKey → List Role
  | [] => []
  | [_] => [.only]
  | x :: y :: rest => if pairs x y then .first :: .last :: scanRoles rest else .only :: scanRoles (y :: rest)

/-- The coarse mode of the packet (R87). -/
def Buffer.coarse (buf : Buffer) : Coarse := coarseOfCode buf.rmcode

/-- The pairing key of block `b` (R156). -/
def Buffer.pairKey (buf : Buffer) (b : BlockIx) : PairKey := (buf.bank b).map fun k => (k, buf.reduced b)

/-- `role[b]` for every block (R155, R156). Invalid blocks, which have no role, keep the start value ONLY. -/
def Buffer.roles (buf : Buffer) : Vector Role 12 :=
  let found := scanRoles ((List.finRange 12).map buf.pairKey)
  Vector.ofFn fun b => found.getD b.val .only

/-- `partner(b)` for a role FIRST or LAST (R157); a block of role ONLY has none. -/
def partnerOf (role : Role) (b : BlockIx) : Option BlockIx :=
  match role with
  | .first => some (b + 1)
  | .last => some (b - 1)
  | .only => none

/-- `RM.TAG` as a function of the coarse mode, the role, the channel's own raw distance `d` and the partner's `dp` (R159,
R160, R161). `dp` is not looked at for a block without partner. -/
def Machine.tagOf (coarse : Coarse) (role : Role) (d dp : U16) : Tag :=
  match coarse with
  | .unknown => .invalid
  | .strongest => .singleStrongest
  | .last => .singleLast
  | .dual =>
    match role with
    | .only => .dualOnly
    | .first => if dp ≤ d then .dualStrongestFirst else .dualWeakFirst
    | .last => if dp < d then .dualStrongestLast else .dualWeakLast

/-- The partner block's raw distance for channel `c`; 0 where there is no partner. -/
def Buffer.partnerDist (buf : Buffer) (role : Role) (b : BlockIx) (c : ChanIx) : U16 :=
  match partnerOf role b with
  | some p => buf.dist p c
  | none => 0

/-- `RM.TAG(b, c)` given the coarse mode and the role of block `b` (R159). -/
def Buffer.tagWith (buf : Buffer) (coarse : Coarse) (role : Role) (b : BlockIx) (c : ChanIx) : Tag :=
  tagOf coarse role (buf.dist b c) (buf.partnerDist role b c)

/-- `role[b]`, which exists only when coarse = DUAL (R155); ONLY, unused, otherwise. -/
def Buffer.role (buf : Buffer) (b : BlockIx) : Role :=
  match buf.coarse with
  | .dual => buf.roles[b]
  | .strongest => .only
  | .last => .only
  | .unknown => .only

/-- `RM.TAG(b, c)` (R159). -/
def Buffer.tag (buf : Buffer) (b : BlockIx) (c : ChanIx) : Tag := buf.tagWith buf.coarse (buf.role b) b c

/-! ### Configuration lookups, R52 -/

/-- The entry of one bank. -/
def PerBank.get {α : Type} (t : PerBank α) : Bank → α
  | .upper => t.upper
  | .lower => t.lower

/-- `DELAY(b, bank, c)` (R28). -/
def Cfg.delayOf (cfg : Cfg) (b : BlockIx) (k : Bank) (c : ChanIx) : U32 := (cfg.delay[b].get k)[c]

/-- `AZ_CORR(bank, c)` (R28). -/
def Cfg.azCorrOf (cfg : Cfg) (k : Bank) (c : ChanIx) : Int := (cfg.azCorr.get k)[c].val

/-- `LASER_ID(bank, c)` (R28). -/
def Cfg.laserIdOf (cfg : Cfg) (k : Bank) (c : ChanIx) : Byte := (cfg.laserId.get k)[c]

/-! ### The parts of a point -/

/-- `PT.AZ`: `(az_cur + AZ_CORR) mod 36000`, Euclidean (R212). -/
def Machine.correctedAzimuth (azCur : U16) (corr : Int) : U16 :=
  BitVec.ofNat 16 (((azCur.toNat : Int) + corr) % (rotMod : Int)).toNat

/-- `PT.TIME`: the sum, in 64 bits (R213). -/
def Machine.timestampOf (base tOffset : U32) : U64 := base.setWidth 64 + tOffset.setWidth 64

/-- The distance in physical units, `d * RES` with `RES = 1/100`, an exact rational (R7, R11, R211). -/
def Machine.physicalDistance (d : U16) : ℚ := (d.toNat : ℚ) / 100

/-- The time that a number of `unit`s is, in seconds, an exact rational. -/
def Machine.timeIn (unit : TimeUnit) (ticks : Nat) : ℚ := (ticks : ℚ) * unit.seconds

/-- The time of a point: its timestamp is in `TS_UNIT` (R8, R210). -/
def Machine.Point.seconds (p : Point) : ℚ := timeIn Config.tsUnit p.timestamp.toNat

/-- An azimuth in degrees, an exact rational (R11). -/
def Machine.degrees (cdeg : U16) : ℚ := (cdeg.toNat : ℚ) / 100

end Sys2Proof
end

