-- ==== Sys2Proof/Machine/Ops.lean ====
section
/-! DEFINITION. The shared operations: raising an error (spec/60_exceptions.md R278), the tracker's transition
(spec/43_rotation_tracker.md R182), assembling a point (spec/44_point_assembler.md R210 to R218), the walk and the whole
transaction (R230) as functions of configuration, ROT and buffer (R232), and the operations on State the meanings are
made of. There is no memory write (spec/20_memory.md R59) and no return from an error (R279). -/

namespace Sys2Proof.Machine

/-! ### Errors -/

/-- The error `BLK.BANK(b)` raises, if any (R131, R273). -/
def bankError (buf : Buffer) (b : BlockIx) : Option Error :=
  match buf.bank b with
  | none => some (.unknownBankFlag b (buf.flag b))
  | some _ => none

/-- The error `RM.RESOLVE` raises, if any (R151, R274). -/
def modeError (buf : Buffer) : Option Error :=
  match buf.coarse with
  | .unknown => some (.unknownReturnMode buf.rmcode)
  | .strongest => none
  | .last => none
  | .dual => none

/-- `raise` of an error, if there is one, in the STATUS record of the transaction in progress: the one operation by which
an error is taken (R278). Outside a transaction there is no STATUS record to record it in (R30). -/
def State.raise (e : Option Error) (s : State) : State :=
  match e with
  | none => s
  | some e => { s with txn := s.txn.map fun t => { t with st := t.st.record e } }

/-! ### The tracker -/

/-- Which case of `ROT.STEP(r)` applies (R182 to R187). The subtraction is made only when `r < last`. -/
def trackCase (eps : U16) (rot : Rot) (r : U16) : TrackCase :=
  match rot.last with
  | none => .init
  | some last => if last ≤ r then .fwd else if eps < last - r then .wrap else .anom

/-- `ROT.STEP(r)`: the new RotationState and the current azimuth (R182). `ROT.rev` is 64 bits and wraps (R186). -/
def track (eps : U16) (rot : Rot) (r : U16) : Rot × U16 :=
  match trackCase eps rot r with
  | .init => ({ rot with last := some r }, r)
  | .fwd => ({ rot with last := some r }, r)
  | .wrap => ({ rot with last := some r, rev := rot.rev + 1 }, r)
  | .anom => (rot, rot.last.getD r)

/-! ### Points -/

/-- The record of channel `c` of block `b`, a block of bank `k`, at the current azimuth `azCur` (R210 to R217). -/
def pointAt (cfg : Cfg) (buf : Buffer) (azCur : U16) (b : BlockIx) (k : Bank) (c : ChanIx) : Point where
  channel := c
  laserId := cfg.laserIdOf k c
  bank := k
  distRaw := buf.dist b c
  refl := buf.refl b c
  azCdeg := correctedAzimuth azCur (cfg.azCorrOf k c)
  tOffset := cfg.delayOf b k c
  timestamp := timestampOf buf.ts (cfg.delayOf b k c)
  tag := buf.tag b c

/-- What `PT.EMIT(b, c)` emits: nothing for a block that is not valid (R216, R273) and for a raw distance 0 (R218), else one
record. -/
def emitAt (cfg : Cfg) (buf : Buffer) (azCur : U16) (b : BlockIx) (c : ChanIx) : Option Point :=
  match buf.bank b with
  | none => none
  | some k => if buf.dist b c = 0 then none else some (pointAt cfg buf azCur b k c)

/-- The points of block `b` in channel order (R220). -/
def blockPoints (cfg : Cfg) (buf : Buffer) (azCur : U16) (b : BlockIx) : List Point :=
  (List.finRange 32).filterMap (emitAt cfg buf azCur b)

/-! ### The transaction -/

/-- Step 5 of R230 over the listed blocks: a valid block steps the tracker and then emits its points; an invalid one does
neither (R190, R222, R273). -/
def walk (cfg : Cfg) (buf : Buffer) : List BlockIx → Rot → Rot × List Point
  | [], rot => (rot, [])
  | b :: rest, rot =>
    if buf.valid b then
      let stepped := track cfg.eps rot (buf.reduced b)
      let after := walk cfg buf rest stepped.1
      (after.1, blockPoints cfg buf stepped.2 b ++ after.2)
    else walk cfg buf rest rot

/-- The errors steps 2 and 3 of R230 raise for a packet of the right length. -/
def packetErrors (buf : Buffer) : List Error :=
  (modeError buf).toList ++ (List.finRange 12).filterMap (bankError buf)

/-- The STATUS record after steps 2 and 3 of R230, before `n_points`. -/
def headerStatus (buf : Buffer) : Status :=
  (packetErrors buf).foldl (fun st e => st.record e)
    { Status.start buf.len with baseTs := buf.ts, rmCode := buf.rmcode, coarse := buf.coarse }

/-- The STATUS record of a buffer of the wrong length (R271). -/
def malformedStatus (len : Nat) : Status := (Status.start len).record (.malformedPacket len)

/-- The whole transaction `PKT.DECODE(len, B)` (R230) as a function of configuration, `ROT.*` and the buffer (R232): the new
`ROT.*` and what the sink receives. -/
def transact (cfg : Cfg) (rot : Rot) (buf : Buffer) : Rot × Delivery :=
  if buf.len = pktLen then
    let walked := walk cfg buf (List.finRange 12) rot
    (walked.1, ⟨{ headerStatus buf with nPoints := walked.2.length }, walked.2⟩)
  else (rot, ⟨malformedStatus buf.len, []⟩)

/-! ### Operations on State -/

/-- The operation returns `a`. -/
def State.returns (a : Answer) (s : State) : State := { s with answer := a }

/-- What `ROT.STEP(r)` leaves in `ROT.*` and reports. A reduced `r` takes its case of R182. For `r` in 36000..65535 R194
accepts the operand and the comparisons of R182 give `ROT.valid` and `ROT.rev`, but R22 and R188 exclude `r` as the rotation
held and reported: that one value is free in 0..35999 (DESIGN CHOICE, log entry 22). -/
def State.trackStep (r : U16) (s : State) : Rot × U16 :=
  let stepped := track s.cfg.eps s.rot r
  if r.toNat < rotMod then stepped
  else
    let v := reduceRotation (Config.freeRotation s.drawn)
    ({ stepped.1 with last := some v }, v)

/-- `ROT.STEP(r)` on the state: writes `ROT.*`; the current azimuth is a local of the transaction in progress (R182, R25).
Without one only `ROT.*` is written (log entry 21). -/
def State.stepTracker (r : U16) (s : State) : State :=
  let stepped := s.trackStep r
  { s with
    rot := stepped.1
    txn := s.txn.map fun t => { t with azCur := stepped.2 }
    drawn := if r.toNat < rotMod then s.drawn else s.drawn + 1 }

/-- `Emit(p)`: appends to the output list of the transaction in progress (R224). The bound of 384 records and the walk order
are kept by `PKT.DECODE`; a transaction entered one operation at a time may repeat or reorder emissions, and each appends
(DESIGN CHOICE, log entry 24). -/
def State.emit (p : Option Point) (s : State) : State :=
  { s with txn := s.txn.map fun t => { t with out := t.out ++ p.toList } }

/-- The end of a transaction: STATUS and the whole list go to the sink together (R53, R225) and nothing of the transaction is
kept (R29). -/
def State.deliver (d : Delivery) (s : State) : State := { s with txn := none, sink := s.sink ++ [d] }

/-- An internal operation that reads the packet: there is a transaction in progress and its length check passed (R118). -/
def State.withPacket (s : State) (k : Txn → Result) : Result :=
  match s.txn with
  | none => .fault .noPacket
  | some t => if t.buf.len = pktLen then k t else .fault .noPacket

/-- An internal operation on "a valid block" `b` (R133, R159). -/
def State.withBlock (s : State) (b : BlockIx) (k : Txn → Bank → Result) : Result :=
  s.withPacket fun t =>
    match t.buf.bank b with
    | none => .fault .invalidBlock
    | some bank => k t bank

/-- An external operation: possible only between transactions (R306, R310). -/
def State.betweenTransactions (s : State) (k : Result) : Result :=
  match s.txn with
  | none => k
  | some _ => .refused .transactionInProgress

/-! ### Which operation comes next -/

/-- The oldest request of the outside, as an operation, and the state without it. -/
def State.nextRequest (s : State) : Option (Instr × State) :=
  match s.pending with
  | [] => none
  | q :: rest => some (decode q, { s with pending := rest })

/-- The operation that runs next and the state it runs on: an internal step of the transaction in progress, else what the
outside requested (R98). -/
def State.fetch (s : State) : Option (Instr × State) :=
  match s.txn with
  | none => s.nextRequest
  | some t =>
    match t.todo with
    | [] => s.nextRequest
    | i :: rest => some (i, { s with txn := some { t with todo := rest } })

/-- `s` with a transaction on `buf` whose one remaining step is `i`. -/
def State.inTransaction (s : State) (buf : Buffer) (i : Instr) : State :=
  { s with txn := some { Txn.start buf with todo := [i] } }

/-- `s` between transactions, with a buffer presented before every other request. -/
def State.presented (s : State) (bytes : List Byte) : State :=
  { s with txn := none, pending := .present bytes :: s.pending }

end Sys2Proof.Machine
end

