-- ==== Sys2Proof/Machine/Blocks.lean ====
section
/-! DEFINITION. The Block Decoder's operations (spec/41_block_decoder.md R130 to R135). -/

namespace Sys2Proof.Machine

/-- `BLK.DECODE(b)` (R130): the block's data, or *invalid* after raising `UnknownBankFlag`. -/
def execBlkDecode (b : BlockIx) (s : State) : Result :=
  s.withPacket fun t =>
    let data := (t.buf.bank b).map fun k => (⟨k, t.buf.rot b, t.buf.units b⟩ : BlockData)
    .next ((s.raise (bankError t.buf b)).returns (.block data))

/-- `BLK.BANK(b)` (R131). -/
def execBlkBank (b : BlockIx) (s : State) : Result :=
  s.withPacket fun t => .next ((s.raise (bankError t.buf b)).returns (.bank (t.buf.bank b)))

/-- `BLK.CHANNELS(b)` (R133), of a valid block. -/
def execBlkChannels (b : BlockIx) (s : State) : Result :=
  s.withBlock b fun t _ => .next (s.returns (.units (t.buf.units b)))

end Sys2Proof.Machine
end

