-- ==== Sys2Proof/Machine/Layout.lean ====
section
/-! DEFINITION. The Packet Layout Model's operations (spec/40_packet_layout.md R110 to R118): the length check and the
accessors, on the packet of the transaction in progress. -/

namespace Sys2Proof.Machine

/-- `PKT.CHECKLEN(len)` (R110): 1206 passes; any other length raises `MalformedPacket(len)` and the transaction ends there,
with the malformed STATUS, no point and no write of `ROT.*` (R271). Outside a transaction there is nothing to end
(log entry 21). What it answers is log entry 8. -/
def execPktChecklen (len : Nat) (s : State) : Result :=
  if len = pktLen then .next (s.returns (.lengthOk true))
  else
    match s.txn with
    | none => .next (s.returns (.lengthOk false))
    | some _ => .next ((s.deliver ⟨malformedStatus len, []⟩).returns (.lengthOk false))

/-- `PKT.FLAG(b)` (R111). -/
def execPktFlag (b : BlockIx) (s : State) : Result := s.withPacket fun t => .next (s.returns (.half (t.buf.flag b)))

/-- `PKT.ROT(b)` (R112). -/
def execPktRot (b : BlockIx) (s : State) : Result := s.withPacket fun t => .next (s.returns (.half (t.buf.rot b)))

/-- `PKT.DIST(b, c)` (R113). -/
def execPktDist (b : BlockIx) (c : ChanIx) (s : State) : Result :=
  s.withPacket fun t => .next (s.returns (.half (t.buf.dist b c)))

/-- `PKT.REFL(b, c)` (R114). -/
def execPktRefl (b : BlockIx) (c : ChanIx) (s : State) : Result :=
  s.withPacket fun t => .next (s.returns (.byte (t.buf.refl b c)))

/-- `PKT.TS` (R115). -/
def execPktTs (s : State) : Result := s.withPacket fun t => .next (s.returns (.word t.buf.ts))

/-- `PKT.RMCODE` (R116). -/
def execPktRmcode (s : State) : Result := s.withPacket fun t => .next (s.returns (.byte t.buf.rmcode))

/-- `PKT.FACTORY` (R117). -/
def execPktFactory (s : State) : Result := s.withPacket fun t => .next (s.returns (.byte t.buf.factory))

end Sys2Proof.Machine
end

