-- ==== Sys2Proof/Machine/Points.lean ====
section
/-! DEFINITION. The Point Assembler's operations (spec/44_point_assembler.md R210 to R218). -/

namespace Sys2Proof.Machine

/-- `PT.DIST(b, c)` (R211): the raw count; its physical value is `physicalDistance`. On an invalid block, whose units
`PKT.DECODE` does not read (R94, R130), the single operation answers the raw count too, because R211 names no valid block
(DESIGN CHOICE, log entry 23). -/
def execPtDist (b : BlockIx) (c : ChanIx) (s : State) : Result :=
  s.withPacket fun t => .next (s.returns (.half (t.buf.dist b c)))

/-- `PT.AZ(b, c)` (R212). The correction is not fed back into the tracker. -/
def execPtAz (b : BlockIx) (c : ChanIx) (s : State) : Result :=
  s.withBlock b fun t k => .next (s.returns (.half (correctedAzimuth t.azCur (s.cfg.azCorrOf k c))))

/-- `PT.TIME(b, c)` (R213). -/
def execPtTime (b : BlockIx) (c : ChanIx) (s : State) : Result :=
  s.withBlock b fun t k =>
    .next (s.returns (.time (s.cfg.delayOf b k c) (timestampOf t.buf.ts (s.cfg.delayOf b k c))))

/-- `PT.LASER(b, c)` (R214). -/
def execPtLaser (b : BlockIx) (c : ChanIx) (s : State) : Result :=
  s.withBlock b fun _ k => .next (s.returns (.laser c (s.cfg.laserIdOf k c)))

/-- `PT.EMIT(b, c)` (R218). That it answers the record it appended, or that there is none, is the model's choice (DESIGN
CHOICE, log entry 8). -/
def execPtEmit (b : BlockIx) (c : ChanIx) (s : State) : Result :=
  s.withPacket fun t =>
    let p := emitAt s.cfg t.buf t.azCur b c
    .next ((s.emit p).returns (.emitted p))

end Sys2Proof.Machine
end

