-- ==== Sys2Proof/Machine/ReturnMode.lean ====
section
/-! DEFINITION. The Return-Mode Resolver's operations (spec/42_return_mode.md R150 to R165). -/

namespace Sys2Proof.Machine

/-- `RM.RESOLVE` (R151). -/
def execRmResolve (s : State) : Result :=
  s.withPacket fun t => .next ((s.raise (modeError t.buf)).returns (.coarse t.buf.coarse))

/-- `RM.PAIR` (R156). It looks at the packet's own values only and writes no state. -/
def execRmPair (s : State) : Result := s.withPacket fun t => .next (s.returns (.roles t.buf.roles))

/-- `RM.TAG(b, c)` (R159), of a valid block. -/
def execRmTag (b : BlockIx) (c : ChanIx) (s : State) : Result :=
  s.withBlock b fun t _ => .next (s.returns (.tag (t.buf.tag b c)))

end Sys2Proof.Machine
end

