-- ==== Sys2Proof/Machine/Session.lean ====
section
/-! DEFINITION. The operations that can be requested from outside (spec/30_encoding.md R98): the packet transaction
(spec/44_point_assembler.md R230) and the session, configuration and status operations (spec/45_session_and_config.md R250
to R252). Each is possible only between transactions (R310). -/

namespace Sys2Proof.Machine

/-- `PKT.DECODE(len, B)` (R230), one atomic step (R60): it opens a transaction, runs it and closes it. -/
def execPktDecode (buf : Buffer) (s : State) : Result :=
  s.betweenTransactions
    (let done := transact s.cfg s.rot buf
     .next (({ s with rot := done.1 }.deliver done.2).returns .nothing))

/-- `SESSION.RESET` (R250): the `ROT` registers; the configuration is untouched. -/
def execSessionReset (s : State) : Result :=
  s.betweenTransactions (.next ({ s with rot := Rot.reset }.returns .nothing))

/-- `CFG.LOAD` (R251): the configuration for all later transactions (R68); `ROT.*` is untouched. -/
def execCfgLoad (cfg : Cfg) (s : State) : Result :=
  s.betweenTransactions (.next ({ s with cfg := cfg }.returns .nothing))

/-- `STATUS.READ` (R252): the triple; no state is written. -/
def execStatusRead (s : State) : Result :=
  s.betweenTransactions (.next (s.returns (.rotation s.rot.valid s.rot.last s.rot.rev)))

end Sys2Proof.Machine
end

