-- ==== Sys2Proof/Machine/Tracker.lean ====
section
/-! DEFINITION. The Rotation Tracker's operations (spec/43_rotation_tracker.md R180 to R195). Both take their operand as it
is given and read no packet, so both always complete (R194). -/

namespace Sys2Proof.Machine

/-- `ROT.REDUCE(rot_raw)` (R181). -/
def execRotReduce (raw : U16) (s : State) : Result := .next (s.returns (.half (reduceRotation raw)))

/-- `ROT.STEP(r)` (R182): returns `az_cur`. No request of the outside is a `ROT.STEP` (R98, R190); that the operation itself,
applied where no transaction is in progress, completes and writes `ROT.*` is the model's choice (DESIGN CHOICE, log entry
21). -/
def execRotStep (r : U16) (s : State) : Result :=
  .next ((s.stepTracker r).returns (.half (s.trackStep r).2))

end Sys2Proof.Machine
end

