-- ==== Sys2Proof/Machine/Dispatch.lean ====
section
/-! DEFINITION. One arm per operation of spec/30_encoding.md R98, each one call of its meaning. -/

namespace Sys2Proof.Machine

def exec (i : Instr) (s : State) : Host.Outcome State Fault Refusal :=
  match i with
  | .pktDecode buf => Sys2Proof.Machine.execPktDecode buf s
  | .pktChecklen len => Sys2Proof.Machine.execPktChecklen len s
  | .pktFlag b => Sys2Proof.Machine.execPktFlag b s
  | .pktRot b => Sys2Proof.Machine.execPktRot b s
  | .pktDist b c => Sys2Proof.Machine.execPktDist b c s
  | .pktRefl b c => Sys2Proof.Machine.execPktRefl b c s
  | .pktTs => Sys2Proof.Machine.execPktTs s
  | .pktRmcode => Sys2Proof.Machine.execPktRmcode s
  | .pktFactory => Sys2Proof.Machine.execPktFactory s
  | .blkDecode b => Sys2Proof.Machine.execBlkDecode b s
  | .blkBank b => Sys2Proof.Machine.execBlkBank b s
  | .blkChannels b => Sys2Proof.Machine.execBlkChannels b s
  | .rmResolve => Sys2Proof.Machine.execRmResolve s
  | .rmPair => Sys2Proof.Machine.execRmPair s
  | .rmTag b c => Sys2Proof.Machine.execRmTag b c s
  | .rotReduce raw => Sys2Proof.Machine.execRotReduce raw s
  | .rotStep r => Sys2Proof.Machine.execRotStep r s
  | .ptDist b c => Sys2Proof.Machine.execPtDist b c s
  | .ptAz b c => Sys2Proof.Machine.execPtAz b c s
  | .ptTime b c => Sys2Proof.Machine.execPtTime b c s
  | .ptLaser b c => Sys2Proof.Machine.execPtLaser b c s
  | .ptEmit b c => Sys2Proof.Machine.execPtEmit b c s
  | .sessionReset => Sys2Proof.Machine.execSessionReset s
  | .cfgLoad cfg => Sys2Proof.Machine.execCfgLoad cfg s
  | .statusRead => Sys2Proof.Machine.execStatusRead s

end Sys2Proof.Machine
end

