-- ==== Sys2Proof/Machine/Step.lean ====
section
/-! DEFINITION. One step of an instance: it runs the next operation whole (spec/20_memory.md R60, R64). With nothing to run
it holds its state (spec/60_exceptions.md R293). -/

namespace Sys2Proof.Machine

/-- One step. -/
def step (s : State) : Host.Outcome State Fault Refusal :=
  match s.fetch with
  | none => .next s
  | some (i, t) => exec i t

/-- `s` with the instruction of the given bits as its next operation: a part of a packet is placed in a packet that a
transaction in progress holds, whose next step is the operation that reads it; any other length is a presented buffer
(log entry 9). -/
def State.withFetchWord (s : State) (nbits w : Nat) : State :=
  let bytes := leBytes ((nbits + 7) / 8) w
  let i := decodeFragment bytes
  if i.external then s.presented bytes else s.inTransaction (fragmentPacket bytes) i

end Sys2Proof.Machine
end

