-- ==== Sys2Proof/Safety.lean ====
section
/-! DEFINITION. What counts as a good state and a safe run, in the terms the statements use: the state invariant of
spec/10_state.md R31 with what the sink was given (spec/42_return_mode.md R162, spec/44_point_assembler.md R210, R213,
R218, R231), the sessions the outside may ask for (spec/30_encoding.md R98), and sequences of tracker steps
(spec/43_rotation_tracker.md R193). -/

namespace Sys2Proof

open Machine

/-- R31: `ROT.valid = 1` implies `0 <= ROT.last <= 35999`. -/
def Machine.Rot.wf (r : Rot) : Bool :=
  match r.last with
  | none => true
  | some v => decide (v.toNat < rotMod)

/-- Which tags can occur in a packet of a coarse mode (R162). -/
def Machine.tagAllowed : Coarse → Tag → Bool
  | .strongest, t => t == .singleStrongest
  | .last, t => t == .singleLast
  | .unknown, t => t == .invalid
  | .dual, t =>
    t == .dualStrongestFirst || t == .dualStrongestLast || t == .dualWeakFirst || t == .dualWeakLast || t == .dualOnly

/-- A record the block may emit: a distance other than 0 (R218) and an azimuth in 0..35999 (R212). -/
def Machine.Point.wf (p : Point) : Bool := decide (p.distRaw ≠ 0) && decide (p.azCdeg.toNat < rotMod)

/-- A delivery the sink may receive: `n_points` is the number of records, at most 384 (R231); a malformed packet has none
(R271); every record is good, its timestamp is the base timestamp plus its offset (R213), its tag fits the coarse mode. -/
def Machine.Delivery.wf (d : Delivery) : Bool :=
  d.status.nPoints == d.points.length && decide (d.points.length ≤ 384) && (!d.status.malformed || d.points.isEmpty)
    && d.points.all fun p =>
      p.wf && p.timestamp == timestampOf d.status.baseTs p.tOffset && tagAllowed d.status.coarse p.tag

/-- A transaction in progress is good: its buffer is in canonical form, its azimuth reduced, its records good. -/
def Machine.Txn.wf (t : Txn) : Bool := t.buf.wf && decide (t.azCur.toNat < rotMod) && t.out.all Point.wf

/-- The invariant every step keeps. -/
def Machine.State.Inv (s : State) : Bool := s.rot.wf && s.txn.all Txn.wf && s.sink.all Delivery.wf

/-- An instance used as R98 and R306 say: no transaction is in progress between steps. That only the four external
operations can be pending is what `Request` says. -/
def Machine.State.ready (s : State) : Bool := s.txn.isNone

/-- A sequence of tracker steps from `rot`: the final RotationState, and the case and `az_cur` of each step in order. -/
def Machine.trackAll (eps : U16) : Rot → List U16 → Rot × List (TrackCase × U16)
  | rot, [] => (rot, [])
  | rot, r :: rest =>
    let stepped := track eps rot r
    let after := trackAll eps stepped.1 rest
    (after.1, (trackCase eps rot r, stepped.2) :: after.2)

/-- RotationState after the valid blocks with an index below `n` were stepped in block order (R64, R190). -/
def Machine.rotBefore (cfg : Cfg) (buf : Buffer) (rot : Rot) (n : Nat) : Rot :=
  ((List.finRange 12).filter fun b => decide (b.val < n) && buf.valid b).foldl
    (fun rot b => (track cfg.eps rot (buf.reduced b)).1) rot

/-- `az_cur` of block `b`: the result of its own step, after those of the valid blocks before it. -/
def Machine.azimuthOf (cfg : Cfg) (buf : Buffer) (rot : Rot) (b : BlockIx) : U16 :=
  (track cfg.eps (rotBefore cfg buf rot b.val) (buf.reduced b)).2

/-- Operations performed one after another, stopping at the first fault or refusal. -/
def Machine.execAll : List Instr → State → Result
  | [], s => .next s
  | i :: rest, s =>
    match exec i s with
    | .next t => execAll rest t
    | .fault e => .fault e
    | .refused e => .refused e

/-- The internal operations R230 performs for a block in step 5: none for an invalid block, else the tracker step and the
32 emissions in channel order. -/
def blockOperations (buf : Buffer) (b : BlockIx) : List Instr :=
  if buf.valid b then .rotStep (buf.reduced b) :: (List.finRange 32).map (Instr.ptEmit b) else []

/-- The internal operations of R230 for a buffer, in its order: length check, return mode, bank of every block, the walk. -/
def packetOperations (buf : Buffer) : List Instr :=
  [.pktChecklen buf.len, .rmResolve] ++ (List.finRange 12).map Instr.blkBank
    ++ (List.finRange 12).flatMap (blockOperations buf)

end Sys2Proof
end

