-- ==== Sys2Proof/Certificates/Slice0/Obligations.lean ====
section
/-! DEFINITION. The statements for the provers, by component in the order of spec/INDEX.md. A result statement's
conclusion is the equation `exec i s = next { s with ... }`, which says at once that the operation completes, its result,
and that everything else is unchanged (its frame). `t` is the transaction in progress and `t.buf.byte o` is `B[o]` of
spec/00_scope.md R10. A statement that rests on a decision the spec marks as its own (D<n> of spec/92_eei_decisions.md), on
a rule it marks derived, or on an entry of the model's log, says so. -/

open Sys2Proof Sys2Proof.Machine

/-! ### Decoding and encoding -/

/-- The table's code points are read as the operations that compare them (the model's reading, log entry 9), and the worked
bytes of 30_encoding.md (a rule marked derived, byte order D2) are the fields it says. -/
def Obligations.WorkedEncodingsDecode : Prop :=
  decodeTableWord 16 0xEEFF = some (.blkBank 0) ∧ decodeTableWord 16 0xDDFF = some (.blkBank 0) ∧
  decodeTableWord 8 0x37 = some .rmResolve ∧ decodeTableWord 8 0x38 = some .rmResolve ∧
  decodeTableWord 8 0x39 = some .rmResolve ∧ decodeTableWord 16 0x0000 = some (.ptEmit 0 0) ∧
  (let head := Buffer.ofBytes [0xFF, 0xEE, 0x08, 0x07, 0xE8, 0x03, 0x64]
   head.flag 0 = 0xEEFF ∧ head.rot 0 = 1800 ∧ head.dist 0 0 = 1000 ∧ head.refl 0 0 = 100) ∧
  (let trailer := fragmentPacket [0x10, 0x00, 0x00, 0x00, 0x39, 0x22]
   trailer.ts = 16 ∧ trailer.rmcode = 57 ∧ trailer.factory = 0x22)

/-- The decoder reads every well-formed external operation back from its encoding, and only the four external operations
have one: no request asks for an internal operation (the form of a request is the model's, log entry 2; D29). -/
def Obligations.DecodeOfEncodeIsIdentity : Prop :=
  (∀ i : Instr, i.wf = true → i.external = true → ∃ q, encode i = some q ∧ decode q = i) ∧
  (∀ i : Instr, i.external = false → encode i = none ∧ ∀ q, decode q ≠ i) ∧
  (∀ i : Instr, i.external = true ↔ (∃ buf, i = .pktDecode buf) ∨ i = .sessionReset ∨ (∃ cfg, i = .cfgLoad cfg) ∨ i = .statusRead)

/-- A presented buffer keeps every byte and its length (its representation is the model's, log entry 7). -/
def Obligations.PresentedBytesAreKept : Prop :=
  ∀ bytes : List Byte, (Buffer.ofBytes bytes).toBytes = bytes ∧ (Buffer.ofBytes bytes).len = bytes.length ∧
    ∀ o, (h : o < bytes.length) → (Buffer.ofBytes bytes).byte o = bytes[o]

/-- Every field of every packet is read back from the packet's bytes (byte order of flag, distance, timestamp: D2). -/
def Obligations.PacketFieldsReadBack : Prop :=
  ∀ p : Packet, p.bytes.length = 1206 ∧ Packet.ofBuffer (Buffer.ofBytes p.bytes) = some p

/-- Every 1206 bytes are the bytes of exactly one packet, the one the decoder reads: no bit is outside the fields (a rule
marked derived; byte order D2). -/
def Obligations.EveryPacketByteIsInAField : Prop :=
  ∀ bytes : List Byte, bytes.length = 1206 →
    ∃ p, Packet.ofBuffer (Buffer.ofBytes bytes) = some p ∧ p.bytes = bytes ∧ ∀ q : Packet, q.bytes = bytes → q = p

/-- Reads are little-endian, and the mixed-width views agree (D2; a rule marked derived). -/
def Obligations.ReadsAreLittleEndian : Prop :=
  ∀ (buf : Buffer) (o : Nat),
    memRead buf o 1 = (buf.byte o).toNat ∧
    memRead buf o 2 = (buf.byte o).toNat + 256 * (buf.byte (o + 1)).toNat ∧
    memRead buf o 4 = memRead buf o 2 + 65536 * memRead buf (o + 2) 2

/-! ### The step -/

/-- A step runs the decoded operation: inside a transaction its next internal step, with that step taken off; else what the
oldest request decodes to, with the request taken off; with neither the state is held (how requests and internal steps are
queued is the model's, log entries 2 and 4). -/
def Obligations.StepRunsTheDecodedRequest : Prop :=
  ∀ s : State,
    (∀ t i rest, s.txn = some t → t.todo = i :: rest →
      step s = exec i { s with txn := some { t with todo := rest } }) ∧
    ((∀ t, s.txn = some t → t.todo = []) →
      (s.pending = [] → step s = .next s) ∧
      ∀ q rest, s.pending = q :: rest → step s = exec (decode q) { s with pending := rest })

/-! ### Packet Layout Model -/

/-- `PKT.FLAG(b)` (byte order: D2). -/
def Obligations.FlagAccessorReads : Prop :=
  ∀ (s : State) (t : Txn) (b : BlockIx), s.txn = some t → t.buf.len = 1206 →
    ∃ v : U16, exec (.pktFlag b) s = .next { s with answer := .half v } ∧
      v.toNat = (t.buf.byte (100 * b.val)).toNat + 256 * (t.buf.byte (100 * b.val + 1)).toNat

/-- `PKT.ROT(b)`: the raw value, not reduced. -/
def Obligations.RotAccessorReads : Prop :=
  ∀ (s : State) (t : Txn) (b : BlockIx), s.txn = some t → t.buf.len = 1206 →
    ∃ v : U16, exec (.pktRot b) s = .next { s with answer := .half v } ∧
      v.toNat = (t.buf.byte (100 * b.val + 2)).toNat + 256 * (t.buf.byte (100 * b.val + 3)).toNat

/-- `PKT.DIST(b, c)` (byte order: D2). -/
def Obligations.DistAccessorReads : Prop :=
  ∀ (s : State) (t : Txn) (b : BlockIx) (c : ChanIx), s.txn = some t → t.buf.len = 1206 →
    ∃ v : U16, exec (.pktDist b c) s = .next { s with answer := .half v } ∧
      v.toNat = (t.buf.byte (100 * b.val + 4 + 3 * c.val)).toNat
        + 256 * (t.buf.byte (100 * b.val + 5 + 3 * c.val)).toNat

/-- `PKT.REFL(b, c)`: the byte, not transformed. -/
def Obligations.ReflAccessorReads : Prop :=
  ∀ (s : State) (t : Txn) (b : BlockIx) (c : ChanIx), s.txn = some t → t.buf.len = 1206 →
    exec (.pktRefl b c) s = .next { s with answer := .byte (t.buf.byte (100 * b.val + 6 + 3 * c.val)) }

/-- `PKT.RMCODE`: the byte at 1204 and no other. -/
def Obligations.RmcodeAccessorReads : Prop :=
  ∀ (s : State) (t : Txn), s.txn = some t → t.buf.len = 1206 →
    exec .pktRmcode s = .next { s with answer := .byte (t.buf.byte 1204) }

/-- `PKT.TS` and `PKT.FACTORY` (D2, D11, D26). -/
def Obligations.TimestampAndFactoryRead : Prop :=
  ∀ (s : State) (t : Txn), s.txn = some t → t.buf.len = 1206 →
    (∃ v : U32, exec .pktTs s = .next { s with answer := .word v } ∧
      v.toNat = (t.buf.byte 1200).toNat + 256 * (t.buf.byte 1201).toNat + 65536 * (t.buf.byte 1202).toNat
        + 16777216 * (t.buf.byte 1203).toNat) ∧
    exec .pktFactory s = .next { s with answer := .byte (t.buf.byte 1205) }

/-- `PKT.CHECKLEN(len)`: 1206 passes; another length ends a transaction in progress with the malformed STATUS (that the
operation itself closes the transaction is the model's reading, log entry 13; so is what it answers, log entry 8; the record's
fields: D9). -/
def Obligations.LengthCheckOutcome : Prop :=
  ∀ (s : State) (len : Nat),
    (len = 1206 → exec (.pktChecklen len) s = .next { s with answer := .lengthOk true }) ∧
    (len ≠ 1206 → s.txn = none → exec (.pktChecklen len) s = .next { s with answer := .lengthOk false }) ∧
    (len ≠ 1206 → ∀ t, s.txn = some t →
      exec (.pktChecklen len) s =
        .next { s with
          txn := none
          sink := s.sink ++ [⟨{ Status.start len with malformed := true }, []⟩]
          answer := .lengthOk false })

/-- The operations that read the packet stop by name where there is none, or it is not 1206 bytes (the stop is the model's,
log entry 10). -/
def Obligations.NoPacketNoAccess : Prop :=
  ∀ (s : State) (b : BlockIx) (c : ChanIx), (∀ t, s.txn = some t → t.buf.len ≠ 1206) →
    ∀ i ∈ [Instr.pktFlag b, .pktRot b, .pktDist b c, .pktRefl b c, .pktTs, .pktRmcode, .pktFactory, .blkDecode b,
        .blkBank b, .blkChannels b, .rmResolve, .rmPair, .rmTag b c, .ptDist b c, .ptAz b c, .ptTime b c, .ptLaser b c,
        .ptEmit b c],
      exec i s = .fault .noPacket

/-- No operation writes the packet buffer or, during a transaction, the configuration: whatever runs inside a transaction
leaves the configuration alone and either leaves the buffer as it was or ends the transaction, and `PKT.DECODE` leaves the
configuration alone. -/
def Obligations.BufferAndConfigurationAreReadOnly : Prop :=
  ∀ (i : Instr) (s u : State), exec i s = .next u →
    (∀ t, s.txn = some t → u.cfg = s.cfg ∧ ∀ t', u.txn = some t' → t'.buf = t.buf) ∧
    (∀ buf, i = .pktDecode buf → u.cfg = s.cfg)

/-! ### Errors -/

/-- What recording each error does to a STATUS record, and what it leaves (the record's fields: D20). -/
def Obligations.RecordingErrors : Prop :=
  ∀ st : Status,
    (∀ len, st.record (.malformedPacket len) = { st with malformed := true, len := len }) ∧
    (∀ k, st.record (.unknownReturnMode k) = { st with unknownMode := true, rmCode := k }) ∧
    (∀ (b : BlockIx) f,
      (∀ i : BlockIx, (st.record (.unknownBankFlag b f)).badBank.getLsbD i.val = (st.badBank.getLsbD i.val || i == b)) ∧
      (∀ i : BlockIx, (st.record (.unknownBankFlag b f)).badFlag[i] = if i = b then f else st.badFlag[i]) ∧
      { st.record (.unknownBankFlag b f) with badBank := st.badBank, badFlag := st.badFlag } = st)

/-! ### Block Decoder -/

/-- `BLK.BANK(b)`: the two sentinels name a bank; every other flag value raises `UnknownBankFlag(b, f)` and names none
(byte order of the flag: D2). -/
def Obligations.BankResolution : Prop :=
  ∀ (s : State) (t : Txn) (b : BlockIx), s.txn = some t → t.buf.len = 1206 →
    (t.buf.flag b = 0xEEFF → exec (.blkBank b) s = .next { s with answer := .bank (some .upper) }) ∧
    (t.buf.flag b = 0xDDFF → exec (.blkBank b) s = .next { s with answer := .bank (some .lower) }) ∧
    (t.buf.flag b ≠ 0xEEFF → t.buf.flag b ≠ 0xDDFF →
      exec (.blkBank b) s =
        .next { s with
          txn := some { t with st := t.st.record (.unknownBankFlag b (t.buf.flag b)) }
          answer := .bank none })

/-- `BLK.DECODE(b)`: bank, raw rotation and 32 units of a valid block, *invalid* and the error for another (D2). -/
def Obligations.BlockDecoding : Prop :=
  ∀ (s : State) (t : Txn) (b : BlockIx), s.txn = some t → t.buf.len = 1206 →
    (∀ k, t.buf.bank b = some k →
      ∃ units : Vector ChannelUnit 32,
        exec (.blkDecode b) s = .next { s with answer := .block (some ⟨k, t.buf.rot b, units⟩) } ∧
        ∀ c : ChanIx, units[c] = ⟨t.buf.dist b c, t.buf.refl b c⟩) ∧
    (t.buf.bank b = none →
      exec (.blkDecode b) s =
        .next { s with
          txn := some { t with st := t.st.record (.unknownBankFlag b (t.buf.flag b)) }
          answer := .block none })

/-- The result of decoding a block depends on the block's own 100 bytes only. -/
def Obligations.BlockDependsOnItsOwnBytes : Prop :=
  ∀ (buf buf' : Buffer) (b : BlockIx),
    (∀ o, 100 * b.val ≤ o → o < 100 * b.val + 100 → buf.byte o = buf'.byte o) →
    buf.bank b = buf'.bank b ∧ buf.rot b = buf'.rot b ∧ buf.units b = buf'.units b

/-- `BLK.CHANNELS(b)` of a valid block: unit `c` is (PKT.DIST(b, c), PKT.REFL(b, c)), zero distances kept. -/
def Obligations.ChannelExtraction : Prop :=
  ∀ (s : State) (t : Txn) (b : BlockIx) (k : Bank), s.txn = some t → t.buf.len = 1206 → t.buf.bank b = some k →
    ∃ units : Vector ChannelUnit 32,
      exec (.blkChannels b) s = .next { s with answer := .units units } ∧
      ∀ c : ChanIx, units[c] = ⟨t.buf.dist b c, t.buf.refl b c⟩

/-- The operations on "a valid block" stop by name on an invalid one (the stop is the model's, log entry 11). -/
def Obligations.InvalidBlockStops : Prop :=
  ∀ (s : State) (t : Txn) (b : BlockIx) (c : ChanIx), s.txn = some t → t.buf.len = 1206 → t.buf.bank b = none →
    ∀ i ∈ [Instr.blkChannels b, .rmTag b c, .ptAz b c, .ptTime b c, .ptLaser b c], exec i s = .fault .invalidBlock

/-! ### Return-Mode Resolver -/

/-- `RM.RESOLVE`: 55, 56, 57 name a coarse mode; every other byte is UNKNOWN and raises `UnknownReturnMode`. Which STATUS
fields the single operation writes is the model's reading (log entry 15). -/
def Obligations.ReturnModeResolution : Prop :=
  ∀ (s : State) (t : Txn), s.txn = some t → t.buf.len = 1206 →
    (t.buf.byte 1204 = 55 → exec .rmResolve s = .next { s with answer := .coarse .strongest }) ∧
    (t.buf.byte 1204 = 56 → exec .rmResolve s = .next { s with answer := .coarse .last }) ∧
    (t.buf.byte 1204 = 57 → exec .rmResolve s = .next { s with answer := .coarse .dual }) ∧
    (t.buf.byte 1204 ≠ 55 → t.buf.byte 1204 ≠ 56 → t.buf.byte 1204 ≠ 57 →
      exec .rmResolve s =
        .next { s with
          txn := some { t with st := t.st.record (.unknownReturnMode (t.buf.byte 1204)) }
          answer := .coarse .unknown })

/-- `RM.PAIR`: the greedy scan, said by what it leaves: FIRST and LAST come in adjacent pairs of alike valid blocks, and no
block left ONLY is alike to the one after it (the pairing rule is decision D16). These conditions fix every role. That the
single operation answers roles under every return mode, and ONLY for an invalid block, is the model's reading (log entry
15). -/
def Obligations.PairingIsGreedy : Prop :=
  ∀ (s : State) (t : Txn), s.txn = some t → t.buf.len = 1206 →
    ∃ role : Vector Role 12,
      exec .rmPair s = .next { s with answer := .roles role } ∧
      role = t.buf.roles ∧ role[0] ≠ .last ∧ role[11] ≠ .first ∧
      ∀ b b' : BlockIx, b'.val = b.val + 1 →
        (role[b] = .first ↔ role[b'] = .last) ∧
        (role[b] = .first →
          t.buf.bank b ≠ none ∧ t.buf.bank b = t.buf.bank b' ∧ t.buf.reduced b = t.buf.reduced b') ∧
        (role[b] = .only →
          ¬ (t.buf.bank b ≠ none ∧ t.buf.bank b = t.buf.bank b' ∧ t.buf.reduced b = t.buf.reduced b'))

/-- `RM.TAG(b, c)` of a valid block (strength and ties: D17; ONLY: D18; no pairing under an unknown mode: D34). -/
def Obligations.TagRule : Prop :=
  ∀ (s : State) (t : Txn) (b : BlockIx) (c : ChanIx) (k : Bank),
    s.txn = some t → t.buf.len = 1206 → t.buf.bank b = some k →
    ∃ g : Tag, exec (.rmTag b c) s = .next { s with answer := .tag g } ∧
      g =
        match t.buf.coarse with
        | .unknown => .invalid
        | .strongest => .singleStrongest
        | .last => .singleLast
        | .dual =>
          match t.buf.roles[b] with
          | .only => .dualOnly
          | .first => if (t.buf.dist (b + 1) c).toNat ≤ (t.buf.dist b c).toNat then .dualStrongestFirst else .dualWeakFirst
          | .last => if (t.buf.dist (b - 1) c).toNat < (t.buf.dist b c).toNat then .dualStrongestLast else .dualWeakLast

/-- Of the two points of one channel of one pair exactly one is strongest and one is weak, by distance, and the first
block wins a tie (D17; rules marked derived). -/
def Obligations.OneStrongestPerPair : Prop :=
  ∀ (buf : Buffer) (b b' : BlockIx) (c : ChanIx),
    buf.coarse = .dual → b'.val = b.val + 1 → buf.roles[b] = .first →
    ((buf.dist b' c).toNat ≤ (buf.dist b c).toNat →
      buf.tag b c = .dualStrongestFirst ∧ buf.tag b' c = .dualWeakLast) ∧
    ((buf.dist b c).toNat < (buf.dist b' c).toNat →
      buf.tag b c = .dualWeakFirst ∧ buf.tag b' c = .dualStrongestLast)

/-! ### Rotation Tracker -/

/-- Rotations of 36000 and more. `ROT.REDUCE`: modulo 36000, any u16 accepted (D3). `ROT.STEP` on an operand that was not
reduced completes: `ROT.valid` is 1, the count stays, and one value in 0..35999 is held and reported, of which nothing else is
said (the model's choice of a free value, log entry 22). -/
def Obligations.RotationReduction : Prop :=
  (∀ (s : State) (raw : U16),
    ∃ v : U16, exec (.rotReduce raw) s = .next { s with answer := .half v } ∧ v.toNat = raw.toNat % 36000) ∧
  (∀ (s : State) (r : U16), s.rot.wf = true → 36000 ≤ r.toNat →
    ∃ v : U16, v.toNat < 36000 ∧
      exec (.rotStep r) s =
        .next { s with
          rot := ⟨some v, s.rot.rev⟩
          txn := s.txn.map fun t => { t with azCur := v }
          answer := .half v
          drawn := s.drawn + 1 })

/-- INIT: the first step after a reset takes a reduced `r` and counts nothing; after any step, and until a reset, `ROT.valid` is 1, so
it is the case of no other block. -/
def Obligations.TrackerInit : Prop :=
  (∀ (s : State) (r : U16), r.toNat < 36000 → s.rot.last = none →
    exec (.rotStep r) s =
      .next { s with
        rot := ⟨some r, s.rot.rev⟩
        txn := s.txn.map fun t => { t with azCur := r }
        answer := .half r }) ∧
  (∀ (s u : State) (i : Instr), exec i s = .next u → s.rot.valid = true → i ≠ .sessionReset → u.rot.valid = true)

/-- FWD: not below the last rotation, by any distance; equality changes nothing in `ROT`. -/
def Obligations.TrackerForward : Prop :=
  ∀ (s : State) (r v : U16), r.toNat < 36000 → s.rot.last = some v → v.toNat ≤ r.toNat →
    exec (.rotStep r) s =
      .next { s with
        rot := ⟨some r, s.rot.rev⟩
        txn := s.txn.map fun t => { t with azCur := r }
        answer := .half r } ∧
    (v = r → (⟨some r, s.rot.rev⟩ : Rot) = s.rot)

/-- WRAP: below by more than `EPS`; the count goes up by 1 modulo 2^64 (boundary: D6; counter wrap: D10). -/
def Obligations.TrackerWrap : Prop :=
  ∀ (s : State) (r v : U16), r.toNat < 36000 → s.rot.last = some v → r.toNat < v.toNat →
    s.cfg.eps.toNat < v.toNat - r.toNat →
    ∃ n : U64, n.toNat = (s.rot.rev.toNat + 1) % 2 ^ 64 ∧
      exec (.rotStep r) s =
        .next { s with
          rot := ⟨some r, n⟩
          txn := s.txn.map fun t => { t with azCur := r }
          answer := .half r }

/-- ANOM: below by at most `EPS`; the held azimuth is reported and `ROT` is not written (D7). -/
def Obligations.TrackerHold : Prop :=
  ∀ (s : State) (r v : U16), r.toNat < 36000 → s.rot.last = some v → r.toNat < v.toNat →
    v.toNat - r.toNat ≤ s.cfg.eps.toNat →
    exec (.rotStep r) s =
      .next { s with
        txn := s.txn.map fun t => { t with azCur := v }
        answer := .half v }

/-- The testable properties of a sequence of reduced rotations (a rule marked derived): azimuths in range, non-decreasing
except at a WRAP, the count the number of WRAPs, the last azimuth held. -/
def Obligations.TrackerSequence : Prop :=
  ∀ (eps : U16) (rot : Rot) (rs : List U16), rot.wf = true → (∀ r ∈ rs, r.toNat < 36000) →
    let run := trackAll eps rot rs
    (∀ x ∈ run.2, x.2.toNat < 36000) ∧
    run.2.IsChain (fun x y => y.1 ≠ .wrap → x.2.toNat ≤ y.2.toNat) ∧
    run.1.rev.toNat = (rot.rev.toNat + (run.2.filter fun x => x.1 == .wrap).length) % 2 ^ 64 ∧
    (∀ x, run.2.getLast? = some x → run.1.last = some x.2)

/-- `EPS = 0` holds nothing; `EPS >= 35999` never wraps and reports the running maximum (D6). -/
def Obligations.EpsilonExtremes : Prop :=
  ∀ (eps : U16) (rot : Rot) (r : U16), rot.wf = true → r.toNat < 36000 →
    (eps = 0 → trackCase eps rot r ≠ .anom) ∧
    (35999 ≤ eps.toNat →
      trackCase eps rot r ≠ .wrap ∧ (track eps rot r).1.rev = rot.rev ∧
      ∀ v, rot.last = some v → (track eps rot r).2.toNat = max v.toNat r.toNat)

/-! ### Point Assembler -/

/-- `PT.DIST(b, c)`: the raw count, whose physical value is a hundredth of it (D4, D5); on an invalid block too, which is the
model's choice (log entry 23). -/
def Obligations.PointDistance : Prop :=
  ∀ (s : State) (t : Txn) (b : BlockIx) (c : ChanIx), s.txn = some t → t.buf.len = 1206 →
    exec (.ptDist b c) s = .next { s with answer := .half (t.buf.dist b c) } ∧
    physicalDistance (t.buf.dist b c) * 100 = ((t.buf.dist b c).toNat : ℚ)

/-- `PT.AZ(b, c)`: the current azimuth plus the table's correction, Euclidean modulo 36000; the tracker is not touched
(D14). -/
def Obligations.PointAzimuth : Prop :=
  ∀ (s : State) (t : Txn) (b : BlockIx) (c : ChanIx) (k : Bank),
    s.txn = some t → t.buf.len = 1206 → t.buf.bank b = some k →
    ∃ v : U16, exec (.ptAz b c) s = .next { s with answer := .half v } ∧
      (v.toNat : Int) = ((t.azCur.toNat : Int) + s.cfg.azCorrOf k c) % 36000

/-- `PT.TIME(b, c)`: the table's delay, and the sum with the base timestamp, which never wraps (D11, D12, D13); so in every
unit of time `TS_UNIT` may be, the sum is the two times together. -/
def Obligations.PointTime : Prop :=
  ∀ (s : State) (t : Txn) (b : BlockIx) (c : ChanIx) (k : Bank),
    s.txn = some t → t.buf.len = 1206 → t.buf.bank b = some k →
    ∃ ts : U64, exec (.ptTime b c) s = .next { s with answer := .time (s.cfg.delayOf b k c) ts } ∧
      ts.toNat = t.buf.ts.toNat + (s.cfg.delayOf b k c).toNat ∧
      ∀ unit : TimeUnit,
        timeIn unit ts.toNat = timeIn unit t.buf.ts.toNat + timeIn unit (s.cfg.delayOf b k c).toNat

/-- `PT.LASER(b, c)`: the table's entry; with the default table `c` for upper, `32 + c` for lower (D15). -/
def Obligations.PointLaser : Prop :=
  ∀ (s : State) (t : Txn) (b : BlockIx) (c : ChanIx) (k : Bank),
    s.txn = some t → t.buf.len = 1206 → t.buf.bank b = some k →
    exec (.ptLaser b c) s = .next { s with answer := .laser c (s.cfg.laserIdOf k c) } ∧
    (s.cfg.laserId = defaultLaserId →
      (s.cfg.laserIdOf k c).toNat = match k with | .upper => c.val | .lower => 32 + c.val)

/-- `PT.EMIT(b, c)`: a distance of 0 emits nothing, a valid block's other channels emit one record with every field as the
component rules say, appended (D12, D14, D15, D17, D28, D31); an invalid block emits nothing (log entry 12); what it answers is
the model's choice (log entry 8), and so is that it may come in any order and again (log entry 24). -/
def Obligations.PointEmission : Prop :=
  ∀ (s : State) (t : Txn) (b : BlockIx) (c : ChanIx), s.txn = some t → t.buf.len = 1206 →
    (t.buf.dist b c = 0 ∨ t.buf.bank b = none → exec (.ptEmit b c) s = .next { s with answer := .emitted none }) ∧
    (∀ k, t.buf.bank b = some k → t.buf.dist b c ≠ 0 →
      ∃ p : Point,
        exec (.ptEmit b c) s =
          .next { s with txn := some { t with out := t.out ++ [p] }, answer := .emitted (some p) } ∧
        p.channel = c ∧ p.laserId = s.cfg.laserIdOf k c ∧ p.bank = k ∧ p.distRaw = t.buf.dist b c ∧
        p.refl = t.buf.refl b c ∧
        (p.azCdeg.toNat : Int) = ((t.azCur.toNat : Int) + s.cfg.azCorrOf k c) % 36000 ∧
        p.tOffset = s.cfg.delayOf b k c ∧
        p.timestamp.toNat = t.buf.ts.toNat + (s.cfg.delayOf b k c).toNat ∧
        p.tag = t.buf.tag b c)

/-! ### The packet transaction -/

/-- `PKT.DECODE` answers a next state for every buffer: it writes `ROT`, delivers one STATUS and one list, and leaves the
rest (a rule marked derived; that the delivery is a field of State is log entry 2). -/
def Obligations.DecodeIsTotal : Prop :=
  ∀ (s : State) (buf : Buffer), s.txn = none →
    ∃ rot d, exec (.pktDecode buf) s = .next { s with rot := rot, sink := s.sink ++ [d], answer := .nothing } ∧
      d.status.len = buf.len ∧ d.status.nPoints = d.points.length ∧ d.points.length ≤ 384

/-- A buffer of another length is illegal as a whole: it is malformed, emits nothing, and its bytes play no part. -/
def Obligations.MalformedBufferIsNotInterpreted : Prop :=
  ∀ (s : State) (buf : Buffer), s.txn = none → buf.len ≠ 1206 →
    ∃ rot d, exec (.pktDecode buf) s = .next { s with rot := rot, sink := s.sink ++ [d], answer := .nothing } ∧
      d.status.malformed = true ∧ d.points = [] ∧
      ∀ buf' : Buffer, buf'.len = buf.len → exec (.pktDecode buf') s = exec (.pktDecode buf) s

/-- The malformed STATUS has every other field 0, and `ROT` is not written (D9). -/
def Obligations.MalformedStatusAndState : Prop :=
  ∀ (s : State) (buf : Buffer), s.txn = none → buf.len ≠ 1206 →
    exec (.pktDecode buf) s =
      .next { s with
        sink := s.sink ++ [⟨⟨buf.len, true, false, 0, .strongest, 0, Vector.replicate 12 0, 0, 0⟩, []⟩]
        answer := .nothing }

/-- The STATUS of a packet of the right length (the record: D20; several errors: D21). -/
def Obligations.StatusOfPacket : Prop :=
  ∀ (s : State) (buf : Buffer), s.txn = none → buf.len = 1206 →
    ∃ rot d, exec (.pktDecode buf) s = .next { s with rot := rot, sink := s.sink ++ [d], answer := .nothing } ∧
      d.status.len = 1206 ∧ d.status.malformed = false ∧ d.status.rmCode = buf.byte 1204 ∧
      d.status.coarse = buf.coarse ∧ (d.status.unknownMode = true ↔ buf.coarse = .unknown) ∧
      (∀ b : BlockIx, d.status.badBank.getLsbD b.val = !buf.valid b) ∧
      (∀ b : BlockIx, d.status.badFlag[b] = if buf.valid b then 0 else buf.flag b) ∧
      d.status.baseTs = buf.ts ∧ d.status.nPoints = d.points.length

/-- The points of a packet in walk order: block after block, channel after channel, each valid block at the azimuth of its
own tracker step, which comes after those of the valid blocks before it; `ROT` ends as the last step leaves it (D8, D9, D25,
D31). -/
def Obligations.PointsInWalkOrder : Prop :=
  ∀ (s : State) (buf : Buffer), s.txn = none → buf.len = 1206 →
    ∃ d, exec (.pktDecode buf) s =
        .next { s with rot := rotBefore s.cfg buf s.rot 12, sink := s.sink ++ [d], answer := .nothing } ∧
      d.points = (List.finRange 12).flatMap fun b =>
        if buf.valid b then
          (List.finRange 32).filterMap fun c => emitAt s.cfg buf (azimuthOf s.cfg buf s.rot b) b c
        else []

/-- `PKT.DECODE` is the composition of its internal operations: performed one after another in a transaction on the same
buffer, from the same `ROT` and configuration, they complete and leave the same `ROT` and the same points; and the delivered
STATUS is the one they filled, with the four fields that `PKT.DECODE` itself fills: base timestamp, code, coarse mode, number
of points (rules marked derived; D29; the single operations as steps are log entry 4, their STATUS fields log entry 15). -/
def Obligations.DecodeIsTheCompositionOfItsSteps : Prop :=
  ∀ (s u : State) (buf : Buffer),
    s.txn = some (Txn.start buf) → u.txn = none → s.rot = u.rot → s.cfg = u.cfg → buf.len = 1206 →
    ∃ s' t u' d,
      execAll (packetOperations buf) s = .next s' ∧ s'.txn = some t ∧
      exec (.pktDecode buf) u = .next u' ∧ u'.sink = u.sink ++ [d] ∧
      s'.rot = u'.rot ∧ t.out = d.points ∧
      d.status = { t.st with
        baseTs := buf.ts
        rmCode := buf.rmcode
        coarse := buf.coarse
        nPoints := t.out.length }

/-- An unknown return mode does not touch the geometry: against the same packet with any other code, the tracker ends the
same and the points are the same but for the tag, which is *invalid* on every one. -/
def Obligations.UnknownModeKeepsGeometry : Prop :=
  ∀ (s : State) (buf buf' : Buffer), s.txn = none → buf.len = 1206 → buf'.len = 1206 →
    (∀ o, o ≠ 1204 → buf'.byte o = buf.byte o) →
    buf.byte 1204 ≠ 55 → buf.byte 1204 ≠ 56 → buf.byte 1204 ≠ 57 →
    ∃ rot d d',
      exec (.pktDecode buf) s = .next { s with rot := rot, sink := s.sink ++ [d], answer := .nothing } ∧
      exec (.pktDecode buf') s = .next { s with rot := rot, sink := s.sink ++ [d'], answer := .nothing } ∧
      d.status.coarse = .unknown ∧ d.status.unknownMode = true ∧
      d.status.badBank = d'.status.badBank ∧ d.status.badFlag = d'.status.badFlag ∧
      d.status.baseTs = d'.status.baseTs ∧
      d.points = d'.points.map fun p => { p with tag := .invalid }

/-- The byte at offset 1205 has no effect on any output or state (D26). -/
def Obligations.FactoryByteIsIgnored : Prop :=
  ∀ (s : State) (buf buf' : Buffer), s.txn = none → buf.len = 1206 → buf'.len = 1206 →
    (∀ o, o ≠ 1205 → buf'.byte o = buf.byte o) →
    exec (.pktDecode buf') s = exec (.pktDecode buf) s

/-- The rotation and the channel units of a block with an unknown flag are not read: they change nothing (D8). -/
def Obligations.BadBlockIsNotRead : Prop :=
  ∀ (s : State) (buf buf' : Buffer) (b : BlockIx), s.txn = none → buf.len = 1206 → buf'.len = 1206 →
    buf.flag b ≠ 0xEEFF → buf.flag b ≠ 0xDDFF →
    (∀ o, ¬ (100 * b.val + 2 ≤ o ∧ o < 100 * b.val + 100) → buf'.byte o = buf.byte o) →
    exec (.pktDecode buf') s = exec (.pktDecode buf) s

/-- A packet without a valid block emits nothing and writes no state; one whose valid blocks hold only distances of 0 emits
nothing but still steps the tracker once for each valid block, in block order, and raises nothing for that reason (D8; rules
marked derived). -/
def Obligations.PacketsThatEmitNothing : Prop :=
  ∀ (s : State) (buf : Buffer), s.txn = none → buf.len = 1206 →
    ((∀ b, buf.valid b = false) →
      ∃ d, exec (.pktDecode buf) s = .next { s with sink := s.sink ++ [d], answer := .nothing } ∧ d.points = [] ∧
        d.status.malformed = false) ∧
    ((∀ b c, buf.valid b = true → buf.dist b c = 0) →
      ∃ d, exec (.pktDecode buf) s =
          .next { s with
            rot := (trackAll s.cfg.eps s.rot (((List.finRange 12).filter buf.valid).map buf.reduced)).1
            sink := s.sink ++ [d]
            answer := .nothing } ∧
        d.points = [] ∧
        (d.status.errorFree = true ↔ buf.coarse ≠ .unknown ∧ ∀ b, buf.valid b = true))

/-- The source's worked example: block 0 with flag 0xEEFF, rotation 1800 and channel 0 = (1000, 100), presented after reset
with code 55 and zero tables, gives its first record. -/
def Obligations.SourceExampleFirstPoint : Prop :=
  ∀ (s : State) (buf : Buffer), s.txn = none → s.rot = Rot.reset → buf.len = 1206 →
    (∀ k c, s.cfg.azCorrOf k c = 0) → (∀ b k c, s.cfg.delayOf b k c = 0) → s.cfg.laserId = defaultLaserId →
    buf.flag 0 = 0xEEFF → buf.rot 0 = 1800 → buf.dist 0 0 = 1000 → buf.refl 0 0 = 100 → buf.rmcode = 55 →
    ∃ rot d p, exec (.pktDecode buf) s = .next { s with rot := rot, sink := s.sink ++ [d], answer := .nothing } ∧
      d.points.head? = some p ∧
      p.channel = 0 ∧ p.laserId = 0 ∧ p.bank = .upper ∧ p.distRaw = 1000 ∧ physicalDistance p.distRaw = 10 ∧
      p.refl = 100 ∧ p.azCdeg = 1800 ∧ p.tOffset = 0 ∧ p.timestamp.toNat = buf.ts.toNat ∧ p.tag = .singleStrongest

/-! ### Session, configuration, status -/

/-- `SESSION.RESET`: the `ROT` registers and nothing else; twice is once (D23). -/
def Obligations.SessionResetEffect : Prop :=
  ∀ s : State, s.txn = none →
    exec .sessionReset s = .next { s with rot := ⟨none, 0⟩, answer := .nothing } ∧
    ∀ u, exec .sessionReset s = .next u → exec .sessionReset u = .next u

/-- After power-on the `ROT` registers are as `SESSION.RESET` leaves them, and no transaction exists (D10, D23). -/
def Obligations.PowerOnIsSessionReset : Prop :=
  State.reset.rot.valid = false ∧ State.reset.rot.last = none ∧ State.reset.rot.rev = 0 ∧ State.reset.txn = none ∧
  ∀ s u, exec .sessionReset s = .next u → u.rot = State.reset.rot ∧ u.cfg = s.cfg

/-- `CFG.LOAD`: the configuration and nothing else; a later `PKT.DECODE` uses it (D24). -/
def Obligations.ConfigurationLoad : Prop :=
  ∀ (s : State) (cfg : Cfg) (buf : Buffer), s.txn = none →
    exec (.cfgLoad cfg) s = .next { s with cfg := cfg, answer := .nothing } ∧
    exec (.pktDecode buf) { s with cfg := cfg, answer := .nothing } =
      .next { s with
        cfg := cfg
        rot := (transact cfg s.rot buf).1
        sink := s.sink ++ [(transact cfg s.rot buf).2]
        answer := .nothing }

/-- `STATUS.READ`: the triple; no state is written (D32). -/
def Obligations.StatusRead : Prop :=
  ∀ s : State, s.txn = none →
    exec .statusRead s = .next { s with answer := .rotation s.rot.valid s.rot.last s.rot.rev } ∧
    (s.rot.valid = true ↔ s.rot.last ≠ none)

/-- While a transaction is in progress the four external operations are refused (D30). -/
def Obligations.OverlapIsRefused : Prop :=
  ∀ (s : State) (i : Instr), s.txn ≠ none → i.external = true → exec i s = .refused .transactionInProgress

/-! ### Whole-machine rules -/

/-- `ROT.valid` is 0 after reset, 1 after any `ROT.STEP`, and only `SESSION.RESET` makes it 0 again. -/
def Obligations.ValidIsClearedOnlyByReset : Prop :=
  State.reset.rot.valid = false ∧
  ∀ (i : Instr) (s u : State), exec i s = .next u →
    (∀ r, i = .rotStep r → u.rot.valid = true) ∧
    (s.rot.valid = true → u.rot.valid = false → i = .sessionReset)

/-- Who writes what: `ROT` only by `PKT.DECODE`, `ROT.STEP` and `SESSION.RESET`; the configuration only by `CFG.LOAD`; the
sink only appended to, at most one record at a time, by `PKT.DECODE` and a failing length check (D8, D9; log entry 13); a free
value is drawn only by `ROT.STEP` on an operand that was not reduced (log entry 22). That `ROT.STEP` writes `ROT` where no
transaction is in progress is log entry 21. -/
def Obligations.WhoWritesWhat : Prop :=
  ∀ (i : Instr) (s u : State), exec i s = .next u →
    (u.rot ≠ s.rot → (∃ buf, i = .pktDecode buf) ∨ (∃ r, i = .rotStep r) ∨ i = .sessionReset) ∧
    (u.cfg ≠ s.cfg → ∃ cfg, i = .cfgLoad cfg) ∧
    (u.sink ≠ s.sink →
      ((∃ buf, i = .pktDecode buf) ∨ (∃ len, len ≠ 1206 ∧ i = .pktChecklen len)) ∧ ∃ d, u.sink = s.sink ++ [d]) ∧
    (u.drawn ≠ s.drawn → ∃ r : U16, 36000 ≤ r.toNat ∧ i = .rotStep r) ∧
    u.pending = s.pending

/-- The tags of a delivered packet are those its coarse mode admits, whatever the packet (a rule marked derived). -/
def Obligations.TagsFitTheCoarseMode : Prop :=
  ∀ (s u : State) (buf : Buffer), exec (.pktDecode buf) s = .next u →
    ∃ d, u.sink = s.sink ++ [d] ∧ ∀ p ∈ d.points, tagAllowed d.status.coarse p.tag = true

/-- The invariant holds after reset. -/
def Obligations.ResetStateIsGood : Prop := State.reset.Inv = true

/-- Every step keeps the invariant: the last rotation is reduced; the buffer of a transaction is in canonical form; every
delivered record has a distance other than 0, an azimuth in 0..35999, the timestamp its offset gives and a tag its packet's
mode admits; every STATUS counts its records, at most 384 (rules marked derived; D14, D24). -/
def Obligations.EveryStepKeepsTheInvariant : Prop :=
  ∀ s u : State, s.Inv = true → step s = .next u → u.Inv = true

/-- An instance used from outside never stops: between transactions every step answers a next state, is between
transactions again and has taken one request, whatever the outside requested (a rule marked derived; the requests are log
entry 2). -/
def Obligations.OutsideRequestsNeverStop : Prop :=
  ∀ s : State, s.ready = true → ∃ u, step s = .next u ∧ u.ready = true ∧ u.pending = s.pending.tail
end

