-- ==== Sys2Proof/Laws/Memory.lean ====
section
/-! SUPPORT. The canonical form of buffers, and what a read of a presented buffer gives. There is no memory write
(spec/20_memory.md R59): the only operation that makes a buffer is presenting its bytes. -/

namespace Sys2Proof

/-! ### Canonical form -/

theorem cellsFrom_wf (bytes : List Byte) :
    ∀ o len, o + bytes.length ≤ len → Memory.wfFrom o len (cellsFrom o bytes) = true := by
  suffices h : ∀ (bytes : List Byte) (lo o len : Nat), lo ≤ o → o + bytes.length ≤ len →
      Memory.wfFrom lo len (cellsFrom o bytes) = true from fun o len hl => h bytes o o len (Nat.le_refl o) hl
  intro bytes
  induction bytes with
  | nil => intros; rfl
  | cons v rest ih =>
    intro lo o len hlo hlen
    simp only [List.length_cons] at hlen
    simp only [cellsFrom]
    split
    · exact ih lo (o + 1) len (by omega) (by omega)
    · rename_i hv
      simp only [Memory.wfFrom, Bool.and_eq_true, decide_eq_true_eq]
      exact ⟨⟨⟨hlo, by omega⟩, hv⟩, ih (o + 1) (o + 1) len (Nat.le_refl _) (by omega)⟩

/-- Presenting bytes gives a buffer in canonical form. -/
theorem Buffer.ofBytes_wf (bytes : List Byte) : (Buffer.ofBytes bytes).wf = true :=
  cellsFrom_wf bytes 0 bytes.length (by omega)

theorem Buffer.empty_wf : Buffer.empty.wf = true := rfl

@[simp] theorem Buffer.ofBytes_len (bytes : List Byte) : (Buffer.ofBytes bytes).len = bytes.length := rfl

/-- Cells in canonical form from `lo` list nothing below `lo`. -/
theorem Memory.byteAt_of_lt {lo len : Nat} {m : Memory} (h : Memory.wfFrom lo len m = true) {o : Nat} (ho : o < lo) :
    m.byteAt o = 0 := by
  induction m generalizing lo with
  | nil => rfl
  | cons cell rest ih =>
    obtain ⟨a, v⟩ := cell
    simp only [Memory.wfFrom, Bool.and_eq_true, decide_eq_true_eq] at h
    simp only [Memory.byteAt]
    rw [if_neg (by omega)]
    exact ih h.2 (by omega)

/-- Cells in canonical form list nothing at `len` or beyond. -/
theorem Memory.byteAt_of_ge {lo len : Nat} {m : Memory} (h : Memory.wfFrom lo len m = true) {o : Nat} (ho : len ≤ o) :
    m.byteAt o = 0 := by
  induction m generalizing lo with
  | nil => rfl
  | cons cell rest ih =>
    obtain ⟨a, v⟩ := cell
    simp only [Memory.wfFrom, Bool.and_eq_true, decide_eq_true_eq] at h
    simp only [Memory.byteAt]
    rw [if_neg (by omega)]
    exact ih h.2

/-! ### Reads -/

/-- The byte at `o + k` of the cells of a run of bytes from `o` is the run's byte `k`. -/
theorem byteAt_cellsFrom (bytes : List Byte) :
    ∀ o k, (cellsFrom o bytes).byteAt (o + k) = bytes.getD k 0 := by
  induction bytes with
  | nil => intros; rfl
  | cons v rest ih =>
    intro o k
    simp only [cellsFrom]
    cases k with
    | zero =>
      split
      · rename_i hv
        have hwf := cellsFrom_wf rest (o + 1) (o + 1 + rest.length) (Nat.le_refl _)
        simp [Memory.byteAt_of_lt hwf (by omega : o < o + 1), hv]
      · simp [Memory.byteAt]
    | succ k =>
      have h := ih (o + 1) k
      have ho : o + 1 + k = o + (k + 1) := by omega
      rw [ho] at h
      split
      · simpa using h
      · simp only [Memory.byteAt]
        rw [if_neg (by omega)]
        simpa using h

/-- `B[o]` of a presented buffer is the presented byte (R51). -/
theorem Buffer.byte_ofBytes (bytes : List Byte) (o : Nat) : (Buffer.ofBytes bytes).byte o = bytes.getD o 0 := by
  have h := byteAt_cellsFrom bytes 0 o
  rwa [Nat.zero_add] at h

theorem memRead_lt (buf : Buffer) (o n : Nat) : memRead buf o n < 256 ^ n := by
  induction n generalizing o with
  | zero => simp [memRead]
  | succ n ih =>
    have h := ih (o + 1)
    have hb := (buf.byte o).isLt
    simp only [memRead, Nat.pow_succ]
    omega

theorem memRead_one (buf : Buffer) (o : Nat) : memRead buf o 1 = (buf.byte o).toNat := by simp [memRead]

theorem memRead_two (buf : Buffer) (o : Nat) :
    memRead buf o 2 = (buf.byte o).toNat + 256 * (buf.byte (o + 1)).toNat := by simp [memRead]

theorem memRead_four (buf : Buffer) (o : Nat) :
    memRead buf o 4 = (buf.byte o).toNat + 256 * (buf.byte (o + 1)).toNat + 65536 * (buf.byte (o + 2)).toNat
      + 16777216 * (buf.byte (o + 3)).toNat := by
  simp only [memRead, Nat.add_assoc, Nat.reduceAdd]
  omega

/-! ### Offsets as numbers, R85 -/

theorem offFlag_eq (b : BlockIx) : offFlag b = 100 * b.val := rfl
theorem offRot_eq (b : BlockIx) : offRot b = 100 * b.val + 2 := rfl
theorem offDist_eq (b : BlockIx) (c : ChanIx) : offDist b c = 100 * b.val + 4 + 3 * c.val := rfl
theorem offRefl_eq (b : BlockIx) (c : ChanIx) : offRefl b c = 100 * b.val + 6 + 3 * c.val := rfl

/-- A read depends on the bytes it reads only (R58). -/
theorem memRead_congr {buf buf' : Buffer} {o n : Nat} (h : ∀ k, o ≤ k → k < o + n → buf.byte k = buf'.byte k) :
    memRead buf o n = memRead buf' o n := by
  induction n generalizing o with
  | zero => rfl
  | succ n ih =>
    simp only [memRead]
    rw [h o (Nat.le_refl o) (by omega), ih fun k hk hk' => h k (by omega) (by omega)]

theorem Buffer.flag_toNat (buf : Buffer) (b : BlockIx) : (buf.flag b).toNat = memRead buf (offFlag b) 2 := by
  simpa [Buffer.flag] using memRead_lt buf (offFlag b) 2

theorem Buffer.rot_toNat (buf : Buffer) (b : BlockIx) : (buf.rot b).toNat = memRead buf (offRot b) 2 := by
  simpa [Buffer.rot] using memRead_lt buf (offRot b) 2

theorem Buffer.dist_toNat (buf : Buffer) (b : BlockIx) (c : ChanIx) :
    (buf.dist b c).toNat = memRead buf (offDist b c) 2 := by
  simpa [Buffer.dist] using memRead_lt buf (offDist b c) 2

theorem Buffer.refl_eq (buf : Buffer) (b : BlockIx) (c : ChanIx) : buf.refl b c = buf.byte (offRefl b c) := by
  simp [Buffer.refl, memRead_one]

theorem Buffer.rmcode_eq (buf : Buffer) : buf.rmcode = buf.byte rmOff := by simp [Buffer.rmcode, memRead_one]

theorem Buffer.factory_eq (buf : Buffer) : buf.factory = buf.byte offFactory := by simp [Buffer.factory, memRead_one]

theorem Buffer.ts_toNat (buf : Buffer) : buf.ts.toNat = memRead buf trailerOff 4 := by
  simpa [Buffer.ts] using memRead_lt buf trailerOff 4

/-! ### Which bytes a field depends on, R61 -/

variable {buf buf' : Buffer} {b : BlockIx} {c : ChanIx}

theorem Buffer.flag_congr (h : ∀ o, 100 * b.val ≤ o → o < 100 * b.val + 2 → buf.byte o = buf'.byte o) :
    buf.flag b = buf'.flag b := by
  simp only [Buffer.flag, offFlag_eq]
  rw [memRead_congr h]

theorem Buffer.rot_congr (h : ∀ o, 100 * b.val + 2 ≤ o → o < 100 * b.val + 4 → buf.byte o = buf'.byte o) :
    buf.rot b = buf'.rot b := by
  simp only [Buffer.rot, offRot_eq]
  rw [memRead_congr fun k h1 h2 => h k h1 (by omega)]

theorem Buffer.dist_congr
    (h : ∀ o, 100 * b.val + 4 + 3 * c.val ≤ o → o < 100 * b.val + 6 + 3 * c.val → buf.byte o = buf'.byte o) :
    buf.dist b c = buf'.dist b c := by
  simp only [Buffer.dist, offDist_eq]
  rw [memRead_congr fun k h1 h2 => h k h1 (by omega)]

theorem Buffer.refl_congr (h : buf.byte (100 * b.val + 6 + 3 * c.val) = buf'.byte (100 * b.val + 6 + 3 * c.val)) :
    buf.refl b c = buf'.refl b c := by
  rw [Buffer.refl_eq, Buffer.refl_eq, offRefl_eq, h]

theorem Buffer.ts_congr (h : ∀ o, 1200 ≤ o → o < 1204 → buf.byte o = buf'.byte o) : buf.ts = buf'.ts := by
  simp only [Buffer.ts]
  rw [memRead_congr fun k h1 h2 => h k h1 (by omega)]

theorem Buffer.rmcode_congr (h : buf.byte 1204 = buf'.byte 1204) : buf.rmcode = buf'.rmcode := by
  rw [Buffer.rmcode_eq, Buffer.rmcode_eq, h]

end Sys2Proof
end

