-- ==== Sys2Proof/Laws/State.lean ====
section
/-! SUPPORT. One lemma per field of State per shared update (Machine/Ops.lean), so that no later proof unfolds a record
update. -/

namespace Sys2Proof.Machine

variable (s : State)

/-! ### `State.returns` -/

@[simp] theorem State.returns_rot (a : Answer) : (s.returns a).rot = s.rot := rfl
@[simp] theorem State.returns_cfg (a : Answer) : (s.returns a).cfg = s.cfg := rfl
@[simp] theorem State.returns_txn (a : Answer) : (s.returns a).txn = s.txn := rfl
@[simp] theorem State.returns_sink (a : Answer) : (s.returns a).sink = s.sink := rfl
@[simp] theorem State.returns_answer (a : Answer) : (s.returns a).answer = a := rfl
@[simp] theorem State.returns_pending (a : Answer) : (s.returns a).pending = s.pending := rfl
@[simp] theorem State.returns_drawn (a : Answer) : (s.returns a).drawn = s.drawn := rfl

/-! ### `State.raise` -/

@[simp] theorem State.raise_rot (e : Option Error) : (s.raise e).rot = s.rot := by cases e <;> rfl
@[simp] theorem State.raise_cfg (e : Option Error) : (s.raise e).cfg = s.cfg := by cases e <;> rfl
@[simp] theorem State.raise_sink (e : Option Error) : (s.raise e).sink = s.sink := by cases e <;> rfl
@[simp] theorem State.raise_answer (e : Option Error) : (s.raise e).answer = s.answer := by cases e <;> rfl
@[simp] theorem State.raise_pending (e : Option Error) : (s.raise e).pending = s.pending := by cases e <;> rfl
@[simp] theorem State.raise_drawn (e : Option Error) : (s.raise e).drawn = s.drawn := by cases e <;> rfl
@[simp] theorem State.raise_none : s.raise none = s := rfl
@[simp] theorem State.raise_txn_some (e : Error) :
    (s.raise (some e)).txn = s.txn.map fun t => { t with st := t.st.record e } := rfl

/-! ### `State.stepTracker` -/

@[simp] theorem State.stepTracker_rot (r : U16) : (s.stepTracker r).rot = (s.trackStep r).1 := rfl
@[simp] theorem State.stepTracker_cfg (r : U16) : (s.stepTracker r).cfg = s.cfg := rfl
@[simp] theorem State.stepTracker_txn (r : U16) :
    (s.stepTracker r).txn = s.txn.map fun t => { t with azCur := (s.trackStep r).2 } := rfl
@[simp] theorem State.stepTracker_sink (r : U16) : (s.stepTracker r).sink = s.sink := rfl
@[simp] theorem State.stepTracker_answer (r : U16) : (s.stepTracker r).answer = s.answer := rfl
@[simp] theorem State.stepTracker_pending (r : U16) : (s.stepTracker r).pending = s.pending := rfl
@[simp] theorem State.stepTracker_drawn (r : U16) :
    (s.stepTracker r).drawn = if r.toNat < rotMod then s.drawn else s.drawn + 1 := rfl

/-! ### `State.emit` -/

@[simp] theorem State.emit_rot (p : Option Point) : (s.emit p).rot = s.rot := rfl
@[simp] theorem State.emit_cfg (p : Option Point) : (s.emit p).cfg = s.cfg := rfl
@[simp] theorem State.emit_txn (p : Option Point) : (s.emit p).txn = s.txn.map fun t => { t with out := t.out ++ p.toList } := rfl
@[simp] theorem State.emit_sink (p : Option Point) : (s.emit p).sink = s.sink := rfl
@[simp] theorem State.emit_answer (p : Option Point) : (s.emit p).answer = s.answer := rfl
@[simp] theorem State.emit_pending (p : Option Point) : (s.emit p).pending = s.pending := rfl
@[simp] theorem State.emit_drawn (p : Option Point) : (s.emit p).drawn = s.drawn := rfl

/-! ### `State.deliver` -/

@[simp] theorem State.deliver_rot (d : Delivery) : (s.deliver d).rot = s.rot := rfl
@[simp] theorem State.deliver_cfg (d : Delivery) : (s.deliver d).cfg = s.cfg := rfl
@[simp] theorem State.deliver_txn (d : Delivery) : (s.deliver d).txn = none := rfl
@[simp] theorem State.deliver_sink (d : Delivery) : (s.deliver d).sink = s.sink ++ [d] := rfl
@[simp] theorem State.deliver_answer (d : Delivery) : (s.deliver d).answer = s.answer := rfl
@[simp] theorem State.deliver_pending (d : Delivery) : (s.deliver d).pending = s.pending := rfl
@[simp] theorem State.deliver_drawn (d : Delivery) : (s.deliver d).drawn = s.drawn := rfl

/-! ### The start of a transaction and of a STATUS record -/

@[simp] theorem State.inTransaction_txn (buf : Buffer) (i : Instr) :
    (s.inTransaction buf i).txn = some { Txn.start buf with todo := [i] } := rfl
@[simp] theorem State.inTransaction_rot (buf : Buffer) (i : Instr) : (s.inTransaction buf i).rot = s.rot := rfl
@[simp] theorem State.inTransaction_cfg (buf : Buffer) (i : Instr) : (s.inTransaction buf i).cfg = s.cfg := rfl
@[simp] theorem State.inTransaction_pending (buf : Buffer) (i : Instr) : (s.inTransaction buf i).pending = s.pending := rfl
@[simp] theorem State.presented_txn (bytes : List Byte) : (s.presented bytes).txn = none := rfl
@[simp] theorem State.presented_rot (bytes : List Byte) : (s.presented bytes).rot = s.rot := rfl
@[simp] theorem State.presented_cfg (bytes : List Byte) : (s.presented bytes).cfg = s.cfg := rfl
@[simp] theorem State.presented_pending (bytes : List Byte) :
    (s.presented bytes).pending = .present bytes :: s.pending := rfl
@[simp] theorem Txn.start_buf (buf : Buffer) : (Txn.start buf).buf = buf := rfl
@[simp] theorem Txn.start_st (buf : Buffer) : (Txn.start buf).st = Status.start buf.len := rfl
@[simp] theorem Txn.start_todo (buf : Buffer) : (Txn.start buf).todo = [] := rfl
@[simp] theorem Txn.start_out (buf : Buffer) : (Txn.start buf).out = [] := rfl
@[simp] theorem Rot.valid_some (v : U16) (n : U64) : (Rot.mk (some v) n).valid = true := rfl
@[simp] theorem Rot.valid_none (n : U64) : (Rot.mk none n).valid = false := rfl

end Sys2Proof.Machine
end

