-- ==== Sys2Proof/Laws/Ops.lean ====
section
/-! SUPPORT. One lemma per shared operation that says everything it can do, to be cited instead of unfolding it. -/

namespace Sys2Proof.Machine

/-! ### Guards -/

/-- The guard of the packet-reading operations: it answers a fault unless a packet is there (R118). -/
theorem State.withPacket_next {s t : State} {k : Txn → Result} (h : s.withPacket k = .next t) :
    ∃ x, s.txn = some x ∧ x.buf.len = pktLen ∧ k x = .next t := by
  unfold State.withPacket at h
  split at h
  · cases h
  · rename_i x hx
    split at h
    · exact ⟨x, hx, ‹_›, h⟩
    · cases h

theorem State.withPacket_of {s : State} {x : Txn} {k : Txn → Result} (hx : s.txn = some x) (hl : x.buf.len = pktLen) :
    s.withPacket k = k x := by
  simp [State.withPacket, hx, hl]

/-- The guard of the operations on a valid block. -/
theorem State.withBlock_next {s t : State} {b : BlockIx} {k : Txn → Bank → Result} (h : s.withBlock b k = .next t) :
    ∃ x bank, s.txn = some x ∧ x.buf.len = pktLen ∧ x.buf.bank b = some bank ∧ k x bank = .next t := by
  obtain ⟨x, hx, hl, hk⟩ := State.withPacket_next h
  split at hk
  · cases hk
  · rename_i bank hb
    exact ⟨x, bank, hx, hl, hb, hk⟩

theorem State.withBlock_of {s : State} {b : BlockIx} {x : Txn} {bank : Bank} {k : Txn → Bank → Result}
    (hx : s.txn = some x) (hl : x.buf.len = pktLen) (hb : x.buf.bank b = some bank) :
    s.withBlock b k = k x bank := by
  simp [State.withBlock, State.withPacket_of hx hl, hb]

/-- The guard of the external operations (R310). -/
theorem State.betweenTransactions_next {s t : State} {k : Result} (h : s.betweenTransactions k = .next t) :
    s.txn = none ∧ k = .next t := by
  unfold State.betweenTransactions at h
  split at h
  · exact ⟨‹_›, h⟩
  · cases h

theorem State.betweenTransactions_of {s : State} {k : Result} (h : s.txn = none) : s.betweenTransactions k = k := by
  simp [State.betweenTransactions, h]

/-- A raised error changes nothing but the STATUS of the transaction in progress. -/
theorem State.raise_txn_eq {s : State} {x : Txn} (hx : s.txn = some x) (e : Option Error) :
    ∃ st, (s.raise e).txn = some { x with st := st } := by
  cases e with
  | none => exact ⟨x.st, hx⟩
  | some e => exact ⟨x.st.record e, by simp [hx]⟩

/-! ### Rotation and azimuth -/

theorem reduceRotation_toNat (raw : U16) : (reduceRotation raw).toNat = raw.toNat % rotMod := by
  have h : raw.toNat % rotMod < 36000 := Nat.mod_lt _ (by decide)
  simp only [reduceRotation, BitVec.toNat_ofNat]
  omega

theorem reduceRotation_lt (raw : U16) : (reduceRotation raw).toNat < rotMod := by
  rw [reduceRotation_toNat]
  exact Nat.mod_lt _ (by decide)

theorem correctedAzimuth_toNat (az : U16) (corr : Int) :
    ((correctedAzimuth az corr).toNat : Int) = ((az.toNat : Int) + corr) % 36000 := by
  have h1 : 0 ≤ ((az.toNat : Int) + corr) % 36000 := Int.emod_nonneg _ (by decide)
  have h2 : ((az.toNat : Int) + corr) % 36000 < 36000 := Int.emod_lt_of_pos _ (by decide)
  simp only [correctedAzimuth, BitVec.toNat_ofNat]
  push_cast
  omega

theorem correctedAzimuth_lt (az : U16) (corr : Int) : (correctedAzimuth az corr).toNat < rotMod := by
  have h := correctedAzimuth_toNat az corr
  have h2 : ((az.toNat : Int) + corr) % 36000 < 36000 := Int.emod_lt_of_pos _ (by decide)
  show (correctedAzimuth az corr).toNat < 36000
  omega

theorem timestampOf_toNat (base off : U32) : (timestampOf base off).toNat = base.toNat + off.toNat := by
  have h1 := base.isLt
  have h2 := off.isLt
  simp only [timestampOf, BitVec.toNat_add, BitVec.toNat_setWidth]
  omega

/-- Everything `ROT.STEP` can do (R183 to R187). -/
theorem track_cases (eps : U16) (rot : Rot) (r : U16) :
    (rot.last = none ∧ trackCase eps rot r = .init ∧ track eps rot r = ({ rot with last := some r }, r)) ∨
    (∃ v, rot.last = some v ∧ v ≤ r ∧ trackCase eps rot r = .fwd ∧ track eps rot r = ({ rot with last := some r }, r)) ∨
    (∃ v, rot.last = some v ∧ r < v ∧ eps < v - r ∧ trackCase eps rot r = .wrap ∧
      track eps rot r = (⟨some r, rot.rev + 1⟩, r)) ∨
    (∃ v, rot.last = some v ∧ r < v ∧ v - r ≤ eps ∧ trackCase eps rot r = .anom ∧ track eps rot r = (rot, v)) := by
  unfold track trackCase
  cases hl : rot.last with
  | none => exact .inl ⟨rfl, rfl, rfl⟩
  | some v =>
    right
    by_cases h1 : v ≤ r
    · exact .inl ⟨v, rfl, h1, by simp [h1], by simp [h1]⟩
    · have h1' : r < v := by
        simp only [BitVec.not_le] at h1
        exact h1
      by_cases h2 : eps < v - r
      · exact .inr (.inl ⟨v, rfl, h1', h2, by simp [h1, h2], by simp [h1, h2]⟩)
      · have h2' : v - r ≤ eps := by
          simp only [BitVec.not_lt] at h2
          exact h2
        exact .inr (.inr ⟨v, rfl, h1', h2', by simp [h1, h2], by simp [h1, h2]⟩)

/-- A step from a good RotationState with a reduced rotation gives a good RotationState and a reduced azimuth (R31, R188). -/
theorem track_wf {eps : U16} {rot : Rot} {r : U16} (hrot : rot.wf = true) (hr : r.toNat < rotMod) :
    (track eps rot r).1.wf = true ∧ (track eps rot r).2.toNat < rotMod := by
  rcases track_cases eps rot r with ⟨_, _, h⟩ | ⟨_, _, _, _, h⟩ | ⟨_, _, _, _, _, h⟩ | ⟨v, hv, _, _, _, h⟩ <;> rw [h]
  · exact ⟨by simpa [Rot.wf] using hr, hr⟩
  · exact ⟨by simpa [Rot.wf] using hr, hr⟩
  · exact ⟨by simpa [Rot.wf] using hr, hr⟩
  · exact ⟨hrot, by simpa [Rot.wf, hv] using hrot⟩

/-! ### Points and the walk -/

theorem valid_iff (buf : Buffer) (b : BlockIx) : buf.valid b = true ↔ ∃ k, buf.bank b = some k := by
  simp [Buffer.valid, Option.isSome_iff_exists]

/-- Everything `PT.EMIT` can emit (R218, R273). -/
theorem emitAt_eq_some {cfg : Cfg} {buf : Buffer} {az : U16} {b : BlockIx} {c : ChanIx} {p : Point} :
    emitAt cfg buf az b c = some p ↔
      ∃ k, buf.bank b = some k ∧ buf.dist b c ≠ 0 ∧ p = pointAt cfg buf az b k c := by
  unfold emitAt
  cases hb : buf.bank b with
  | none => simp
  | some k =>
    by_cases hd : buf.dist b c = 0
    · simp [hd]
    · simp [eq_comm]

theorem blockPoints_length_le (cfg : Cfg) (buf : Buffer) (az : U16) (b : BlockIx) :
    (blockPoints cfg buf az b).length ≤ 32 := by
  have h := List.length_filterMap_le (emitAt cfg buf az b) (List.finRange 32)
  simpa [blockPoints] using h

/-- A block emits nothing when it is invalid. -/
theorem blockPoints_invalid {cfg : Cfg} {buf : Buffer} {az : U16} {b : BlockIx} (h : buf.valid b = false) :
    blockPoints cfg buf az b = [] := by
  have hb : buf.bank b = none := by simpa [Buffer.valid] using h
  simp [blockPoints, List.filterMap_eq_nil_iff, emitAt, hb]

theorem walk_cons_valid {cfg : Cfg} {buf : Buffer} {b : BlockIx} {rest : List BlockIx} {rot : Rot}
    (h : buf.valid b = true) :
    walk cfg buf (b :: rest) rot =
      ((walk cfg buf rest (track cfg.eps rot (buf.reduced b)).1).1,
        blockPoints cfg buf (track cfg.eps rot (buf.reduced b)).2 b
          ++ (walk cfg buf rest (track cfg.eps rot (buf.reduced b)).1).2) := by
  simp [walk, h]

theorem walk_cons_invalid {cfg : Cfg} {buf : Buffer} {b : BlockIx} {rest : List BlockIx} {rot : Rot}
    (h : buf.valid b = false) : walk cfg buf (b :: rest) rot = walk cfg buf rest rot := by
  simp [walk, h]

theorem walk_nil (cfg : Cfg) (buf : Buffer) (rot : Rot) : walk cfg buf [] rot = (rot, []) := rfl

/-- Every record of a walk is a record of some walked block at some reduced azimuth, if ROT is good (R188, R216). -/
theorem walk_mem {cfg : Cfg} {buf : Buffer} {p : Point} :
    ∀ {bs : List BlockIx} {rot : Rot}, p ∈ (walk cfg buf bs rot).2 →
      ∃ b ∈ bs, ∃ az c, emitAt cfg buf az b c = some p := by
  intro bs
  induction bs with
  | nil => intro rot h; simp [walk] at h
  | cons b rest ih =>
    intro rot h
    cases hv : buf.valid b with
    | false =>
      rw [walk_cons_invalid hv] at h
      obtain ⟨b', hb', az, c, hp⟩ := ih h
      exact ⟨b', List.mem_cons_of_mem _ hb', az, c, hp⟩
    | true =>
      rw [walk_cons_valid hv, List.mem_append] at h
      rcases h with h | h
      · obtain ⟨c, -, hp⟩ := List.mem_filterMap.1 h
        exact ⟨b, List.mem_cons_self, _, c, hp⟩
      · obtain ⟨b', hb', az, c, hp⟩ := ih h
        exact ⟨b', List.mem_cons_of_mem _ hb', az, c, hp⟩

theorem walk_length_le (cfg : Cfg) (buf : Buffer) :
    ∀ (bs : List BlockIx) (rot : Rot), (walk cfg buf bs rot).2.length ≤ 32 * bs.length := by
  intro bs
  induction bs with
  | nil => intro rot; simp [walk]
  | cons b rest ih =>
    intro rot
    cases hv : buf.valid b with
    | false =>
      rw [walk_cons_invalid hv]
      have := ih rot
      simp only [List.length_cons]
      omega
    | true =>
      rw [walk_cons_valid hv]
      have h1 := blockPoints_length_le cfg buf (track cfg.eps rot (buf.reduced b)).2 b
      have h2 := ih (track cfg.eps rot (buf.reduced b)).1
      simp only [List.length_append, List.length_cons]
      omega

theorem walk_rot_wf {cfg : Cfg} {buf : Buffer} :
    ∀ {bs : List BlockIx} {rot : Rot}, rot.wf = true → (walk cfg buf bs rot).1.wf = true := by
  intro bs
  induction bs with
  | nil => intro rot h; exact h
  | cons b rest ih =>
    intro rot h
    cases hv : buf.valid b with
    | false => rw [walk_cons_invalid hv]; exact ih h
    | true => rw [walk_cons_valid hv]; exact ih (track_wf h (reduceRotation_lt _)).1

/-! ### Recording errors -/

@[simp] theorem Status.record_coarse (st : Status) (e : Error) : (st.record e).coarse = st.coarse := by cases e <;> rfl
@[simp] theorem Status.record_baseTs (st : Status) (e : Error) : (st.record e).baseTs = st.baseTs := by cases e <;> rfl
@[simp] theorem Status.record_nPoints (st : Status) (e : Error) : (st.record e).nPoints = st.nPoints := by cases e <;> rfl

/-- Recording any number of errors leaves the coarse mode, the base timestamp and the count alone. -/
theorem foldl_record_fields (es : List Error) (st : Status) :
    (es.foldl (fun st e => st.record e) st).coarse = st.coarse ∧
    (es.foldl (fun st e => st.record e) st).baseTs = st.baseTs ∧
    (es.foldl (fun st e => st.record e) st).nPoints = st.nPoints := by
  induction es generalizing st with
  | nil => exact ⟨rfl, rfl, rfl⟩
  | cons e es ih => simpa using ih (st.record e)

theorem headerStatus_coarse (buf : Buffer) : (headerStatus buf).coarse = buf.coarse := (foldl_record_fields _ _).1

theorem headerStatus_baseTs (buf : Buffer) : (headerStatus buf).baseTs = buf.ts := (foldl_record_fields _ _).2.1

/-! ### The transaction -/

theorem transact_packet {cfg : Cfg} {rot : Rot} {buf : Buffer} (h : buf.len = pktLen) :
    transact cfg rot buf =
      ((walk cfg buf (List.finRange 12) rot).1,
        ⟨{ headerStatus buf with nPoints := (walk cfg buf (List.finRange 12) rot).2.length },
          (walk cfg buf (List.finRange 12) rot).2⟩) := by
  simp [transact, h]

theorem transact_malformed {cfg : Cfg} {rot : Rot} {buf : Buffer} (h : buf.len ≠ pktLen) :
    transact cfg rot buf = (rot, ⟨malformedStatus buf.len, []⟩) := by
  simp [transact, h]

end Sys2Proof.Machine
end

