-- ==== Sys2Proof/Laws/Pairing.lean ====
section
/-! SUPPORT. What the pairing scan of spec/42_return_mode.md R156 leaves, to be cited instead of unfolding it. -/

namespace Sys2Proof.Machine

/-- One role per block. -/
theorem scanRoles_length : ∀ l : List PairKey, (scanRoles l).length = l.length := by
  intro l
  induction l using scanRoles.induct with
  | case1 => rfl
  | case2 => rfl
  | case3 x y rest h ih => simp [scanRoles, h, ih]
  | case4 x y rest h ih => simp [scanRoles, h, ih]

/-- The scan never starts with a LAST block. -/
theorem scanRoles_head : ∀ l : List PairKey, (scanRoles l)[0]? ≠ some .last := by
  intro l
  induction l using scanRoles.induct with
  | case1 => simp [scanRoles]
  | case2 => simp [scanRoles]
  | case3 x y rest h ih => simp [scanRoles, h]
  | case4 x y rest h ih => simp [scanRoles, h]

/-- What the scan leaves at two neighbouring blocks. -/
theorem scanRoles_spec : ∀ (l : List PairKey) (i : Nat), i + 1 < l.length →
    ((scanRoles l)[i]? = some .first ↔ (scanRoles l)[i+1]? = some .last) ∧
    ((scanRoles l)[i]? = some .first → ∃ x y, l[i]? = some x ∧ l[i+1]? = some y ∧ pairs x y = true) ∧
    ((scanRoles l)[i]? = some .only → ∃ x y, l[i]? = some x ∧ l[i+1]? = some y ∧ pairs x y = false) := by
  intro l
  induction l using scanRoles.induct with
  | case1 => intro i h; simp at h
  | case2 => intro i h; simp at h
  | case3 x y rest h ih =>
    intro i hi
    simp only [scanRoles, h, if_true]
    match i with
    | 0 => simp; exact h
    | 1 =>
      have := scanRoles_head rest
      simp only [List.getElem?_cons_succ, List.getElem?_cons_zero]
      exact ⟨⟨fun h => by simp at h, fun h => absurd h this⟩, fun h => by simp at h, fun h => by simp at h⟩
    | i + 2 =>
      simp only [List.length_cons] at hi
      simpa using ih i (by omega)
  | case4 x y rest h ih =>
    intro i hi
    simp only [scanRoles, h]
    match i with
    | 0 =>
      have := scanRoles_head (y :: rest)
      refine ⟨⟨fun h => by simp at h, fun h => absurd h (by simpa using this)⟩, fun h => by simp at h, fun _ => ⟨x, y, rfl, rfl, by simpa using h⟩⟩
    | i + 1 =>
      simp only [List.length_cons] at hi
      simpa using ih i (by simp; omega)

/-- The scan never ends with a FIRST block. -/
theorem scanRoles_last : ∀ (l : List PairKey) (i : Nat), i + 1 = l.length → (scanRoles l)[i]? ≠ some .first := by
  intro l
  induction l using scanRoles.induct with
  | case1 => intro i h; simp at h
  | case2 => intro i h; simp at h; simp [scanRoles, h]
  | case3 x y rest h ih =>
    intro i hi
    simp only [List.length_cons] at hi
    match i with
    | 0 => omega
    | 1 => simp [scanRoles, h]
    | i + 2 => have := ih i (by omega); simpa [scanRoles, h] using this
  | case4 x y rest h ih =>
    intro i hi
    simp only [List.length_cons] at hi
    match i with
    | 0 => omega
    | i + 1 => have := ih i (by simp; omega); simpa [scanRoles, h] using this

/-- The role of a block is what the scan found for it. -/
theorem roles_get (buf : Buffer) (b : BlockIx) :
    (scanRoles ((List.finRange 12).map buf.pairKey))[b.val]? = some buf.roles[b] := by
  have hl : b.val < (scanRoles ((List.finRange 12).map buf.pairKey)).length := by simp [scanRoles_length]
  rw [List.getElem?_eq_getElem hl]
  simp [Buffer.roles, List.getD_eq_getElem?_getD, hl]

/-- The scan looks at every block once, in order. -/
theorem key_get (buf : Buffer) (b : BlockIx) : ((List.finRange 12).map buf.pairKey)[b.val]? = some (buf.pairKey b) := by
  simp

/-- When two blocks pair. -/
theorem pairs_iff (buf : Buffer) (b b' : BlockIx) : pairs (buf.pairKey b) (buf.pairKey b') = true ↔
    (buf.bank b ≠ none ∧ buf.bank b = buf.bank b' ∧ buf.reduced b = buf.reduced b') := by
  unfold pairs Buffer.pairKey
  cases h : buf.bank b <;> cases h' : buf.bank b' <;> simp

end Sys2Proof.Machine
end

