-- ==== Sys2Proof/Laws/PerInstr.lean ====
section
/-! SUPPORT. Statements made for every instruction, one lemma per constructor of Instr.

`DecodeWf`: a request decodes only to a well-formed operation that the outside may ask for (R98). -/

namespace Sys2Proof.Laws.DecodeWf

/-- Whatever request decodes to this instruction, the instruction is well-formed and external. -/
def Statement (i : Instr) : Prop := ∀ q : Request, decode q = i → i.wf = true ∧ i.external = true

theorem of_decode {q : Request} {i : Instr} (h : decode q = i) : i.wf = true ∧ i.external = true := by
  subst h
  cases q with
  | present bytes => exact ⟨Buffer.ofBytes_wf bytes, rfl⟩
  | sessionReset => exact ⟨rfl, rfl⟩
  | cfgLoad cfg => exact ⟨rfl, rfl⟩
  | statusRead => exact ⟨rfl, rfl⟩

theorem pktDecode (buf : Buffer) : Statement (.pktDecode buf) := fun _ h => of_decode h
theorem pktChecklen (len : Nat) : Statement (.pktChecklen len) := fun _ h => of_decode h
theorem pktFlag (b : BlockIx) : Statement (.pktFlag b) := fun _ h => of_decode h
theorem pktRot (b : BlockIx) : Statement (.pktRot b) := fun _ h => of_decode h
theorem pktDist (b : BlockIx) (c : ChanIx) : Statement (.pktDist b c) := fun _ h => of_decode h
theorem pktRefl (b : BlockIx) (c : ChanIx) : Statement (.pktRefl b c) := fun _ h => of_decode h
theorem pktTs : Statement .pktTs := fun _ h => of_decode h
theorem pktRmcode : Statement .pktRmcode := fun _ h => of_decode h
theorem pktFactory : Statement .pktFactory := fun _ h => of_decode h
theorem blkDecode (b : BlockIx) : Statement (.blkDecode b) := fun _ h => of_decode h
theorem blkBank (b : BlockIx) : Statement (.blkBank b) := fun _ h => of_decode h
theorem blkChannels (b : BlockIx) : Statement (.blkChannels b) := fun _ h => of_decode h
theorem rmResolve : Statement .rmResolve := fun _ h => of_decode h
theorem rmPair : Statement .rmPair := fun _ h => of_decode h
theorem rmTag (b : BlockIx) (c : ChanIx) : Statement (.rmTag b c) := fun _ h => of_decode h
theorem rotReduce (raw : U16) : Statement (.rotReduce raw) := fun _ h => of_decode h
theorem rotStep (r : U16) : Statement (.rotStep r) := fun _ h => of_decode h
theorem ptDist (b : BlockIx) (c : ChanIx) : Statement (.ptDist b c) := fun _ h => of_decode h
theorem ptAz (b : BlockIx) (c : ChanIx) : Statement (.ptAz b c) := fun _ h => of_decode h
theorem ptTime (b : BlockIx) (c : ChanIx) : Statement (.ptTime b c) := fun _ h => of_decode h
theorem ptLaser (b : BlockIx) (c : ChanIx) : Statement (.ptLaser b c) := fun _ h => of_decode h
theorem ptEmit (b : BlockIx) (c : ChanIx) : Statement (.ptEmit b c) := fun _ h => of_decode h
theorem sessionReset : Statement .sessionReset := fun _ h => of_decode h
theorem cfgLoad (cfg : Cfg) : Statement (.cfgLoad cfg) := fun _ h => of_decode h
theorem statusRead : Statement .statusRead := fun _ h => of_decode h

end Sys2Proof.Laws.DecodeWf
end

