-- ==== Sys2Proof/Laws/Step.lean ====
section
/-! SUPPORT. The STATUS record of a packet, the tracker as numbers, and what the operations write. -/

namespace Sys2Proof.Machine

/-! ### STATUS -/

/-- Recording block and mode errors leaves length and `malformed` alone. -/
theorem foldl_len (es : List Error) (st : Status) (h : ∀ e ∈ es, ∀ n, e ≠ .malformedPacket n) :
   (es.foldl (fun st e => st.record e) st).len = st.len ∧ (es.foldl (fun st e => st.record e) st).malformed = st.malformed := by
  induction es generalizing st with
  | nil => simp
  | cons e es ih =>
    have := ih (st.record e) (fun e' he' => h e' (by simp [he']))
    simp only [List.foldl_cons]
    cases e with
    | malformedPacket n => exact absurd rfl (h _ (by simp) n)
    | unknownBankFlag b f => exact this
    | unknownReturnMode k => exact this
theorem packetErrors_ne (buf : Buffer) : ∀ e ∈ packetErrors buf, ∀ n, e ≠ .malformedPacket n := by
  intro e he n; rintro rfl
  simp only [packetErrors, List.mem_append, Option.mem_toList, List.mem_filterMap] at he
  rcases he with he | ⟨b, -, he⟩
  · unfold modeError at he; split at he <;> simp at he
  · unfold bankError at he; split at he <;> simp at he
theorem headerStatus_len (buf) : (headerStatus buf).len = buf.len ∧ (headerStatus buf).malformed = false := foldl_len _ _ (packetErrors_ne buf)


theorem foldl_bank (buf : Buffer) (bs : List BlockIx) (st : Status) :
   (∀ b : BlockIx, ((bs.filterMap (bankError buf)).foldl (fun st e => st.record e) st).badBank.getLsbD b.val = (st.badBank.getLsbD b.val || (decide (b ∈ bs) && !buf.valid b))) ∧
   (∀ b : BlockIx, ((bs.filterMap (bankError buf)).foldl (fun st e => st.record e) st).badFlag[b] = if b ∈ bs ∧ buf.valid b = false then buf.flag b else st.badFlag[b]) ∧
   ((bs.filterMap (bankError buf)).foldl (fun st e => st.record e) st).unknownMode = st.unknownMode ∧
   ((bs.filterMap (bankError buf)).foldl (fun st e => st.record e) st).rmCode = st.rmCode := by
  induction bs generalizing st with
  | nil => simp
  | cons a bs ih =>
    cases hb : buf.bank a with
    | some k =>
      have hv : buf.valid a = true := by simp [Buffer.valid, hb]
      have he : bankError buf a = none := by simp [bankError, hb]
      rw [List.filterMap_cons_none he]
      obtain ⟨i1, i2, i3, i4⟩ := ih st
      refine ⟨fun b => ?_, fun b => ?_, i3, i4⟩
      · rw [i1 b]; by_cases hab : b = a
        · simp [hab, hv]
        · simp [hab]
      · rw [i2 b]; by_cases hab : b = a
        · simp [hab, hv]
        · simp [hab]
    | none =>
      have hv : buf.valid a = false := by simp [Buffer.valid, hb]
      have he : bankError buf a = some (.unknownBankFlag a (buf.flag a)) := by simp [bankError, hb]
      rw [List.filterMap_cons_some he]
      simp only [List.foldl_cons]
      obtain ⟨i1, i2, i3, i4⟩ := ih (st.record (.unknownBankFlag a (buf.flag a)))
      refine ⟨fun b => ?_, fun b => ?_, i3, i4⟩
      · rw [i1 b]
        simp only [Status.record, BitVec.getLsbD_or, BitVec.getLsbD_twoPow]
        by_cases hab : b = a
        · simp [hab, hv]
        · have h' : ¬ (a.val = b.val) := fun h => hab (Fin.ext h.symm)
          simp [hab, h']
      · rw [i2 b]
        simp only [Status.record, Fin.getElem_fin, Vector.getElem_set]
        by_cases hab : b = a
        · simp [hab, hv]
        · have h' : ¬ (a.val = b.val) := fun h => hab (Fin.ext h.symm)
          simp [hab, h']
theorem headerStatus_spec (buf : Buffer) :
    (∀ b : BlockIx, (headerStatus buf).badBank.getLsbD b.val = !buf.valid b) ∧
    (∀ b : BlockIx, (headerStatus buf).badFlag[b] = if buf.valid b then 0 else buf.flag b) ∧
    ((headerStatus buf).unknownMode = true ↔ buf.coarse = .unknown) ∧ (headerStatus buf).rmCode = buf.rmcode := by
  simp only [headerStatus, packetErrors, List.foldl_append]
  obtain ⟨i1, i2, i3, i4⟩ := foldl_bank buf (List.finRange 12)
    ((modeError buf).toList.foldl (fun st e => st.record e)
      { Status.start buf.len with baseTs := buf.ts, rmCode := buf.rmcode, coarse := buf.coarse })
  refine ⟨fun b => ?_, fun b => ?_, ?_, ?_⟩
  · rw [i1 b]; unfold modeError; cases h : buf.coarse <;> simp [Status.record, Status.start]
  · rw [i2 b]; unfold modeError; cases hv : buf.valid b <;> cases h : buf.coarse <;> simp [Status.record, Status.start]
  · rw [i3]; unfold modeError; cases h : buf.coarse <;> simp [Status.record, Status.start]
  · rw [i4]; unfold modeError; cases h : buf.coarse <;> simp [Status.record]

/-! ### The tracker -/

theorem track_valid (eps rot r) : (track eps rot r).1.valid = true := by
  rcases track_cases eps rot r with ⟨_, _, h⟩ | ⟨_, _, _, _, h⟩ | ⟨_, _, _, _, _, h⟩ | ⟨v, hv, _, _, _, h⟩ <;> rw [h]
  · rfl
  · rfl
  · rfl
  · simp [Rot.valid, hv]
theorem walk_valid (cfg buf) : ∀ bs (rot : Rot), rot.valid = true → (walk cfg buf bs rot).1.valid = true := by
  intro bs; induction bs with
  | nil => intro rot h; exact h
  | cons b rest ih =>
    intro rot h
    cases hv : buf.valid b with
    | false => rw [walk_cons_invalid hv]; exact ih _ h
    | true => rw [walk_cons_valid hv]; exact ih _ (track_valid _ _ _)

theorem sub_toNat_of_lt {v r : U16} (h : r.toNat < v.toNat) : (v - r).toNat = v.toNat - r.toNat := by
  have := v.isLt; have := r.isLt
  rw [BitVec.toNat_sub]; omega

theorem track_num (eps : U16) (rot : Rot) (r : U16) :
   (trackCase eps rot r ≠ .wrap → (track eps rot r).1.rev = rot.rev ∧ ∀ v, rot.last = some v → v.toNat ≤ (track eps rot r).2.toNat) ∧
   (trackCase eps rot r = .wrap → (track eps rot r).1.rev = rot.rev + 1) ∧ (track eps rot r).1.last = some (track eps rot r).2 := by
  rcases track_cases eps rot r with ⟨hl, hc, h⟩ | ⟨v, hv, hle, hc, h⟩ | ⟨v, hv, _, _, hc, h⟩ | ⟨v, hv, _, _, hc, h⟩ <;> rw [h, hc]
  · simp [hl]
  · simp [hv]; exact hle
  · simp
  · simp [hv]

/-- A reduced operand takes the case of R182. -/
theorem trackStep_of_lt {s : State} {r : U16} (h : r.toNat < rotMod) : s.trackStep r = track s.cfg.eps s.rot r := by
  simp [State.trackStep, h]

/-- An unreduced operand: valid becomes 1, the count stays (R31), and one reduced value, of which nothing else is said, is
held and reported. -/
theorem trackStep_of_ge {s : State} {r : U16} (hs : s.rot.wf = true) (h : ¬ r.toNat < rotMod) :
    ∃ v : U16, v.toNat < rotMod ∧ s.trackStep r = (⟨some v, s.rot.rev⟩, v) := by
  refine ⟨reduceRotation (Config.freeRotation s.drawn), reduceRotation_lt _, ?_⟩
  have hrev : (track s.cfg.eps s.rot r).1.rev = s.rot.rev := by
    rcases track_cases s.cfg.eps s.rot r with ⟨_, _, e⟩ | ⟨_, _, _, _, e⟩ | ⟨v, hv, hlt, _, _, e⟩ | ⟨_, _, _, _, _, e⟩
    · rw [e]
    · rw [e]
    · have hw : v.toNat < rotMod := by simpa [Rot.wf, hv] using hs
      rw [BitVec.lt_def] at hlt
      omega
    · rw [e]
  simp only [State.trackStep, h, if_false, ← hrev]

/-- The tracker holds and reports reduced rotations, whatever its operand (R31, R188). -/
theorem trackStep_wf {s : State} {r : U16} (hs : s.rot.wf = true) :
    (s.trackStep r).1.wf = true ∧ (s.trackStep r).2.toNat < rotMod := by
  by_cases h : r.toNat < rotMod
  · rw [trackStep_of_lt h]; exact track_wf hs h
  · obtain ⟨v, hv, e⟩ := trackStep_of_ge hs h
    rw [e]; exact ⟨by simpa [Rot.wf] using hv, hv⟩

/-- Any `ROT.STEP` leaves `ROT.valid = 1` (R21). -/
theorem trackStep_valid (s : State) (r : U16) : (s.trackStep r).1.valid = true := by
  by_cases h : r.toNat < rotMod
  · rw [trackStep_of_lt h]; exact track_valid _ _ _
  · simp [State.trackStep, h, Rot.valid]

/-! ### The operations -/

/-- Which operation a step runs: an internal step of the transaction in progress, or what the outside requested. -/
theorem fetch_cases {s t : State} {i : Instr} (h : s.fetch = some (i, t)) :
    (∃ x rest, s.txn = some x ∧ x.todo = i :: rest ∧ t = { s with txn := some { x with todo := rest } }) ∨
    (∃ q rest, s.pending = q :: rest ∧ i = decode q ∧ t = { s with pending := rest }) := by
  have hreq : s.nextRequest = some (i, t) → ∃ q rest, s.pending = q :: rest ∧ i = decode q ∧ t = { s with pending := rest } := by
    intro h
    unfold State.nextRequest at h
    split at h
    · cases h
    · cases h; exact ⟨_, _, ‹_›, rfl, rfl⟩
  unfold State.fetch at h
  split at h
  · exact .inr (hreq h)
  · split at h
    · exact .inr (hreq h)
    · cases h; exact .inl ⟨_, _, ‹_›, ‹_›, rfl⟩

/-- `PKT.DECODE` between transactions is `transact` and the delivery. -/
theorem exec_pktDecode (s : State) (buf : Buffer) (h : s.txn = none) :
   exec (.pktDecode buf) s = .next { s with rot := (transact s.cfg s.rot buf).1, sink := s.sink ++ [(transact s.cfg s.rot buf).2], answer := .nothing } := by
  simp [exec, execPktDecode, State.betweenTransactions_of h, State.deliver, State.returns, h]

/-- Which operations write `ROT`, and what. -/
theorem exec_rot {i : Instr} {s u : State} (h : exec i s = .next u) :
    u.rot = s.rot ∨ (∃ buf, i = .pktDecode buf ∧ u.rot = (transact s.cfg s.rot buf).1) ∨
      (∃ r, i = .rotStep r ∧ u.rot = (s.trackStep r).1) ∨ (i = .sessionReset ∧ u.rot = Rot.reset) := by
  cases i <;> simp only [exec] at h
  case pktDecode buf => obtain ⟨-, hk⟩ := State.betweenTransactions_next h; cases hk; exact .inr (.inl ⟨buf, rfl, rfl⟩)
  case sessionReset => obtain ⟨-, hk⟩ := State.betweenTransactions_next h; cases hk; exact .inr (.inr (.inr ⟨rfl, rfl⟩))
  case cfgLoad => obtain ⟨-, hk⟩ := State.betweenTransactions_next h; cases hk; exact .inl rfl
  case statusRead => obtain ⟨-, hk⟩ := State.betweenTransactions_next h; cases hk; exact .inl rfl
  case pktChecklen len =>
      unfold execPktChecklen at h; split at h
      · cases h; exact .inl rfl
      · split at h <;> cases h <;> exact .inl rfl
  case rotReduce => cases h; exact .inl rfl
  case rotStep r => cases h; exact .inr (.inr (.inl ⟨r, rfl, rfl⟩))
  case blkChannels => obtain ⟨x, k, hx, -, -, hk⟩ := State.withBlock_next h; cases hk; exact .inl rfl
  case rmTag => obtain ⟨x, k, hx, -, -, hk⟩ := State.withBlock_next h; cases hk; exact .inl rfl
  case ptAz => obtain ⟨x, k, hx, -, -, hk⟩ := State.withBlock_next h; cases hk; exact .inl rfl
  case ptTime => obtain ⟨x, k, hx, -, -, hk⟩ := State.withBlock_next h; cases hk; exact .inl rfl
  case ptLaser => obtain ⟨x, k, hx, -, -, hk⟩ := State.withBlock_next h; cases hk; exact .inl rfl
  all_goals
      obtain ⟨x, hx, -, hk⟩ := State.withPacket_next h
      cases hk
      left; simp

end Sys2Proof.Machine
end

