-- ==== Sys2Proof/Tests/Slice0.lean ====
section
/-! SUPPORT. The author's tests. Expected values come from spec/95_test_vectors.md (V<n> and program P2) and from the
examples in the rules; the witnesses at the end show, for every statement with hypotheses, a state and operands that meet
them. -/

namespace Sys2Proof.Tests

set_option Elab.async false

open Sys2Proof.Machine

/-! ### Helpers -/

/-- A packet of the right length with the listed bytes; all others 0. -/
def pkt (cells : Memory) : Buffer := ⟨1206, cells⟩

/-- Packet P2 of spec/95_test_vectors.md: a dual packet with a bad block, a wrap and a small backward step. -/
def p2 : Buffer := pkt (
  [(0, 0xFF), (1, 0xEE), (2, 0x96), (3, 0x8C), (4, 0xF4), (5, 0x01), (6, 0x0A), (7, 0xBC), (8, 0x02), (9, 0x0B), (10, 0x2C), (11, 0x01)] ++
  [(12, 0x0C), (15, 0x0D), (97, 0x90), (98, 0x01), (99, 0x01), (100, 0xFF), (101, 0xEE), (102, 0x96), (103, 0x8C), (104, 0x08), (105, 0x02), (106, 0x14)] ++
  [(107, 0xBC), (108, 0x02), (109, 0x15), (112, 0x16), (113, 0xFA), (115, 0x17), (197, 0x90), (198, 0x01), (199, 0x02), (200, 0xFF), (201, 0xDD), (202, 0xAA)] ++
  [(203, 0x8C), (219, 0xE8), (220, 0x03), (221, 0x32), (300, 0xFF), (301, 0xDD), (302, 0x0A), (319, 0x84), (320, 0x03), (321, 0x33), (400, 0xFF), (401, 0xEE)] ++
  [(402, 0x1E), (404, 0x64), (406, 0x01), (500, 0xFF), (501, 0xDD), (502, 0x1E), (504, 0xC8), (506, 0x02), (600, 0xFF), (601, 0xDD), (602, 0x1E), (604, 0x96)] ++
  [(606, 0x03), (700, 0xEE), (701, 0xFF), (702, 0x32), (704, 0xE7), (705, 0x03), (706, 0x09), (800, 0xFF), (801, 0xEE), (802, 0x32), (804, 0x0A), (806, 0x01)] ++
  [(900, 0xFF), (901, 0xEE), (902, 0x2D), (904, 0x0B), (906, 0x01), (1000, 0xFF), (1001, 0xEE), (1002, 0x2D), (1004, 0x0C), (1006, 0x01), (1100, 0xFF), (1101, 0xEE)] ++
  [(1102, 0x3C), (1104, 0xFF), (1105, 0xFF), (1106, 0xFF), (1200, 0xFF), (1201, 0xFF), (1202, 0xFF), (1203, 0xFF), (1204, 0x39), (1205, 0x22)])

/-- The configuration of P2: EPS 100, DELAY(b, k, c) = 50 b + c, AZ_CORR +c for upper and -c for lower. -/
def cfg2 : Cfg where
  eps := 100
  delay := Vector.ofFn fun b : BlockIx =>
    let row := Vector.ofFn fun c : ChanIx => BitVec.ofNat 32 (50 * b.val + c.val)
    ⟨row, row⟩
  azCorr := ⟨Vector.ofFn fun c : ChanIx => ⟨c.val, by omega⟩, Vector.ofFn fun c : ChanIx => ⟨-c.val, by omega⟩⟩
  laserId := defaultLaserId

/-- After reset, with the configuration of P2. -/
def s0 : State := { State.reset with cfg := cfg2 }

/-- Inside a transaction on `buf`, at azimuth `az`. -/
def inPacket (buf : Buffer) (az : U16 := 0) : State := { s0 with txn := some { Txn.start buf with azCur := az } }

/-- With RotationState `(valid, last, rev)` and `EPS`, between transactions. -/
def atRot (eps : U16) (last : Option U16) (rev : U64) : State :=
  { s0 with cfg := { cfg2 with eps := eps }, rot := ⟨last, rev⟩ }

/-- What an operation answers. -/
def ans : Result → Option Answer
  | .next t => some t.answer
  | .fault _ => none
  | .refused _ => none

/-- RotationState after an operation. -/
def rotOf : Result → Option Rot
  | .next t => some t.rot
  | .fault _ => none
  | .refused _ => none

/-- The latest delivery after an operation. -/
def delivered : Result → Option Delivery
  | .next t => t.sink.getLast?
  | .fault _ => none
  | .refused _ => none

/-- The STATUS being filled after an operation. -/
def statusOf : Result → Option Status
  | .next t => t.txn.map Txn.st
  | .fault _ => none
  | .refused _ => none

/-! ### Well-formedness: what each check refuses -/

theorem test_wf_buffer_unsorted : (Instr.pktDecode ⟨2, [(1, 1), (0, 1)]⟩).wf = false := by decide

theorem test_wf_buffer_zero : (Instr.pktDecode ⟨2, [(0, 0)]⟩).wf = false := by decide

theorem test_wf_buffer_outside : (Instr.pktDecode ⟨2, [(2, 1)]⟩).wf = false := by decide

theorem test_wf_buffer_good : (Instr.pktDecode ⟨2, [(0, 1), (1, 255)]⟩).wf = true := by decide

/-! ### Decoding: bytes written out from spec/30_encoding.md, per family -/

/-- The four interactions of R306, and no other operation, can be asked for from outside (R98). -/
theorem test_requests :
    decode (.present [0xFF, 0x00, 0xEE]) = .pktDecode ⟨3, [(0, 0xFF), (2, 0xEE)]⟩ ∧
    decode .sessionReset = .sessionReset ∧ decode (.cfgLoad cfg2) = .cfgLoad cfg2 ∧ decode .statusRead = .statusRead ∧
    encode (.rotStep 5) = none ∧ encode (.pktChecklen 1206) = none ∧ encode (.blkBank 0) = none ∧
    encode .rmResolve = none ∧ encode (.ptEmit 0 0) = none := by
  decide +kernel

/-- The code points of the opcode table, bit by bit: 0xEEFF, 0xDDFF (R88), 55, 56, 57 (R89), distance 0 (R94). -/
theorem test_table_words :
    decodeTableWord 16 0b1110111011111111 = some (.blkBank 0) ∧
    decodeTableWord 16 0b1101110111111111 = some (.blkBank 0) ∧
    decodeTableWord 8 0b00110111 = some .rmResolve ∧ decodeTableWord 8 0b00111000 = some .rmResolve ∧
    decodeTableWord 8 0b00111001 = some .rmResolve ∧ decodeTableWord 16 0 = some (.ptEmit 0 0) := by decide

/-- What `step` answers after `withFetchWord` for the code points of the table. -/
theorem test_step_table_words :
    ans (step (State.reset.withFetchWord 16 0xEEFF)) = some (.bank (some .upper)) ∧
    ans (step (State.reset.withFetchWord 16 0xDDFF)) = some (.bank (some .lower)) ∧
    ans (step (State.reset.withFetchWord 16 0xFFEE)) = some (.bank none) ∧
    ans (step (State.reset.withFetchWord 8 55)) = some (.coarse .strongest) ∧
    ans (step (State.reset.withFetchWord 8 57)) = some (.coarse .dual) ∧
    ans (step (State.reset.withFetchWord 8 58)) = some (.coarse .unknown) ∧
    ans (step (State.reset.withFetchWord 16 0)) = some (.emitted none) := by decide +kernel

/-! ### PKT: V11 to V17 -/

/-- V14, V15, V16. -/
theorem test_checklen :
    ans (exec (.pktChecklen 1206) s0) = some (.lengthOk true) ∧
    ans (exec (.pktChecklen 1207) s0) = some (.lengthOk false) ∧
    ans (exec (.pktChecklen 2412) s0) = some (.lengthOk false) := by decide +kernel

/-- V13: inside a transaction a length of 1205 ends it with the malformed STATUS. -/
theorem test_checklen_ends :
    (delivered (exec (.pktChecklen 1205) (inPacket p2))).map (fun d => (d.status.malformed, d.status.len, d.points.length))
      = some (true, 1205, 0) ∧ statusOf (exec (.pktChecklen 1205) (inPacket p2)) = none := by decide +kernel

/-- V17a, V17b. -/
theorem test_flag :
    ans (exec (.pktFlag 3) (inPacket (pkt [(300, 0xFF), (301, 0xEE)]))) = some (.half 0xEEFF) ∧
    ans (exec (.pktFlag 3) (inPacket (pkt [(300, 0xEE), (301, 0xFF)]))) = some (.half 0xFFEE) := by decide +kernel

/-- V17c, V17d, V17e: not reduced. -/
theorem test_rot :
    ans (exec (.pktRot 0) (inPacket (pkt [(2, 0x08), (3, 0x07)]))) = some (.half 1800) ∧
    ans (exec (.pktRot 11) (inPacket (pkt [(1102, 0x9F), (1103, 0x8C)]))) = some (.half 35999) ∧
    ans (exec (.pktRot 11) (inPacket (pkt [(1102, 0xFF), (1103, 0xFF)]))) = some (.half 65535) := by decide +kernel

/-- V17g, V17h, V17i. -/
theorem test_dist :
    ans (exec (.pktDist 0 1) (inPacket (pkt [(7, 0x01), (9, 0xFF)]))) = some (.half 1) ∧
    ans (exec (.pktDist 11 31) (inPacket (pkt [(1197, 0xFF), (1198, 0xFF)]))) = some (.half 65535) ∧
    ans (exec (.pktDist 5 5) (inPacket (pkt [(519, 0xF4), (520, 0x01), (521, 0x0A)]))) = some (.half 500) := by
  decide +kernel

/-- V17g, V17h, V17i. -/
theorem test_refl :
    ans (exec (.pktRefl 0 1) (inPacket (pkt [(7, 0x01), (9, 0xFF)]))) = some (.byte 255) ∧
    ans (exec (.pktRefl 11 31) (inPacket (pkt [(1197, 0xFF), (1198, 0xFF)]))) = some (.byte 0) ∧
    ans (exec (.pktRefl 5 5) (inPacket (pkt [(519, 0xF4), (520, 0x01), (521, 0x0A)]))) = some (.byte 10) := by
  decide +kernel

/-- V17k. -/
theorem test_ts :
    ans (exec .pktTs (inPacket (pkt [(1200, 0x78), (1201, 0x56), (1202, 0x34), (1203, 0x12)])))
      = some (.word 305419896) := by decide +kernel

/-- V17m. -/
theorem test_rmcode_factory :
    ans (exec .pktRmcode (inPacket (pkt [(1204, 0x39), (1205, 0x22)]))) = some (.byte 57) ∧
    ans (exec .pktFactory (inPacket (pkt [(1204, 0x39), (1205, 0x22)]))) = some (.byte 0x22) := by decide +kernel

/-! ### BLK: V1, V20 to V29 -/

/-- V20, V21. -/
theorem test_bank :
    ans (exec (.blkBank 4) (inPacket (pkt [(400, 0xFF), (401, 0xEE)]))) = some (.bank (some .upper)) ∧
    ans (exec (.blkBank 4) (inPacket (pkt [(400, 0xFF), (401, 0xDD)]))) = some (.bank (some .lower)) := by decide +kernel

/-- V22, V24: no bank, and the error is recorded for that block with the flag read. -/
theorem test_bank_error :
    (statusOf (exec (.blkBank 7) (inPacket (pkt [(700, 0xEE), (701, 0xFF)])))).map (fun st => (st.badBank, st.badFlag[7]))
      = some (0b000010000000, 0xFFEE) ∧
    (statusOf (exec (.blkBank 0) (inPacket (pkt [(0, 0xFE), (1, 0xEE)])))).map (fun st => (st.badBank, st.badFlag[0]))
      = some (1, 0xEEFE) := by decide +kernel

/-- V1: the block decodes to (upper, 1800, unit 0 = (1000, 100), the others (0, 0)). -/
theorem test_block :
    ans (exec (.blkDecode 0) (inPacket (pkt [(0, 0xFF), (1, 0xEE), (2, 0x08), (3, 0x07), (4, 0xE8), (5, 0x03), (6, 0x64)])))
      = some (.block (some ⟨.upper, 1800, (Vector.replicate 32 ⟨0, 0⟩).set 0 ⟨1000, 100⟩⟩)) := by decide +kernel

/-- R133's example: bytes F4 01 0A at relative offset 19 are unit 5 = (500, 10); here in block 5 (V17i). -/
theorem test_channels :
    ans (exec (.blkChannels 5) (inPacket (pkt [(500, 0xFF), (501, 0xDD), (519, 0xF4), (520, 0x01), (521, 0x0A)])))
      = some (.units ((Vector.replicate 32 ⟨0, 0⟩).set 5 ⟨500, 10⟩)) := by decide +kernel

/-! ### RM: V30 to V66, P2 -/

/-- V31, V33: LAST; one below the codes is unknown and is recorded. -/
theorem test_resolve :
    ans (exec .rmResolve (inPacket (pkt [(1204, 56)]))) = some (.coarse .last) ∧
    ans (exec .rmResolve (inPacket (pkt [(1204, 54)]))) = some (.coarse .unknown) ∧
    (statusOf (exec .rmResolve (inPacket (pkt [(1204, 54)])))).map (fun st => (st.unknownMode, st.rmCode))
      = some (true, 54) := by decide +kernel

/-- (1204, 1205) = (00, 39) is UNKNOWN (2.4). -/
theorem test_resolve_low_byte_only :
    ans (exec .rmResolve (inPacket (pkt [(1205, 0x39)]))) = some (.coarse .unknown) := by decide +kernel

/-- P2's roles: F L F L O F L none O F L O (an invalid block keeps the start value ONLY). -/
theorem test_pair :
    ans (exec .rmPair (inPacket p2))
      = some (.roles #v[.first, .last, .first, .last, .only, .first, .last, .only, .only, .first, .last, .only]) := by
  decide +kernel

/-- V43 and V46: three alike pair greedily, and 36100 pairs with 100. -/
theorem test_scan :
    scanRoles [some (.upper, 100), some (.upper, 100), some (.upper, 100), some (.upper, 200)]
      = [.first, .last, .only, .only] ∧
    scanRoles [some (.upper, reduceRotation 100), some (.upper, reduceRotation 36100), some (.upper, 200)]
      = [.first, .last, .only] ∧
    scanRoles [none, none, some (.lower, 7), some (.upper, 7)] = [.only, .only, .only, .only] := by decide

/-- V51 to V53, V54, V57, V60, V61, V62. -/
theorem test_tagOf :
    tagOf .strongest .only 1000 0 = .singleStrongest ∧ tagOf .last .only 1000 0 = .singleLast ∧
    tagOf .unknown .only 1000 0 = .invalid ∧ tagOf .dual .only 1000 0 = .dualOnly ∧
    tagOf .dual .first 700 700 = .dualStrongestFirst ∧ tagOf .dual .last 700 700 = .dualWeakLast ∧
    tagOf .dual .first 300 0 = .dualStrongestFirst ∧ tagOf .dual .last 250 0 = .dualStrongestLast := by decide

/-- P2, points 0 and 4 (V2): the 500 of block 0 is weak and first, the 520 of block 1 strongest and last. -/
theorem test_tag :
    ans (exec (.rmTag 0 0) (inPacket p2)) = some (.tag .dualWeakFirst) ∧
    ans (exec (.rmTag 1 0) (inPacket p2)) = some (.tag .dualStrongestLast) := by decide +kernel

/-! ### ROT: V70 to V102 -/

/-- V72, V73, V76. -/
theorem test_reduce :
    ans (exec (.rotReduce 35999) s0) = some (.half 35999) ∧ ans (exec (.rotReduce 36000) s0) = some (.half 0) ∧
    ans (exec (.rotReduce 65535) s0) = some (.half 29535) := by decide +kernel

/-- V81, V83, V86, V87, V88, V93, V95, V101. -/
theorem test_rotStep :
    rotOf (exec (.rotStep 35999) (atRot 100 none 0)) = some ⟨some 35999, 0⟩ ∧
    rotOf (exec (.rotStep 1000) (atRot 100 (some 1000) 0)) = some ⟨some 1000, 0⟩ ∧
    rotOf (exec (.rotStep 900) (atRot 100 (some 1000) 0)) = some ⟨some 1000, 0⟩ ∧
    rotOf (exec (.rotStep 899) (atRot 100 (some 1000) 0)) = some ⟨some 899, 1⟩ ∧
    rotOf (exec (.rotStep 0) (atRot 65535 (some 35999) 0)) = some ⟨some 35999, 0⟩ ∧
    rotOf (exec (.rotStep 0) (atRot 10 (some 100) 0xFFFFFFFFFFFFFFFF)) = some ⟨some 0, 0⟩ := by decide +kernel

/-- The inner step of a transaction runs before what the outside requested, and is taken off. -/
theorem test_step_inner :
    ans (step { inPacket p2 with
        txn := some { Txn.start p2 with todo := [.pktRmcode, .pktTs] }, pending := [.statusRead] })
      = some (.byte 57) := by decide +kernel

/-- R194: an unreduced operand is accepted, held and reported as one reduced value (log entry 22). -/
theorem test_rotStep_unreduced :
    ∃ v : U16, v.toNat < 36000 ∧ rotOf (exec (.rotStep 36000) (atRot 100 (some 35999) 7)) = some ⟨some v, 7⟩ ∧
      ans (exec (.rotStep 36000) (atRot 100 (some 35999) 7)) = some (.half v) := by
  obtain ⟨v, hv, e⟩ := trackStep_of_ge (s := atRot 100 (some 35999) 7) (r := 36000) (by decide) (by decide)
  refine ⟨v, hv, ?_, ?_⟩
  · exact congrArg (fun x => some x.1) e
  · exact congrArg (fun x => some (Answer.half x.2)) e

/-- V86, V88: the azimuth is the held one within EPS, the new one beyond. -/
theorem test_rotStep_azimuth :
    ans (exec (.rotStep 999) (atRot 100 (some 1000) 0)) = some (.half 1000) ∧
    ans (exec (.rotStep 899) (atRot 100 (some 1000) 0)) = some (.half 899) := by decide +kernel

/-! ### PT: V110 to V131, P2 -/

/-- V110. -/
theorem test_ptDist :
    ans (exec (.ptDist 0 0) (inPacket (pkt [(4, 0xE8), (5, 0x03)]))) = some (.half 1000) := by decide +kernel

/-- V114 to V119. -/
theorem test_correctedAzimuth :
    correctedAzimuth 35990 20 = 10 ∧ correctedAzimuth 5 (-10) = 35995 ∧ correctedAzimuth 35999 1 = 0 ∧
    correctedAzimuth 0 (-35999) = 1 ∧ correctedAzimuth 35999 35999 = 35998 ∧ correctedAzimuth 0 (-1) = 35999 := by decide

/-- P2: block 0 channel 31 (upper, +31) at 35990 gives 21; block 2 channel 5 (lower, -5) at 10 gives 5. -/
theorem test_ptAz :
    ans (exec (.ptAz 0 31) (inPacket p2 35990)) = some (.half 21) ∧
    ans (exec (.ptAz 2 5) (inPacket p2 10)) = some (.half 5) := by decide +kernel

/-- V122, and P2's last point (block 11, channel 0). -/
theorem test_ptTime :
    timestampOf 0xFFFFFFFF 0xFFFFFFFF = 8589934590 ∧
    ans (exec (.ptTime 11 0) (inPacket p2)) = some (.time 550 4294967845) := by decide +kernel

/-- V125, V127 with P2's blocks 0 (upper) and 2 (lower). -/
theorem test_ptLaser :
    ans (exec (.ptLaser 0 31) (inPacket p2)) = some (.laser 31 31) ∧
    ans (exec (.ptLaser 2 31) (inPacket p2)) = some (.laser 31 63) := by decide +kernel

/-- P2's point 5 (block 1, channel 1), and its block 0 channel 3, whose distance is 0 (V4). -/
theorem test_ptEmit :
    ans (exec (.ptEmit 1 1) (inPacket p2 35990))
      = some (.emitted (some ⟨1, 1, .upper, 700, 21, 35991, 51, 4294967346, .dualWeakLast⟩)) ∧
    ans (exec (.ptEmit 0 3) (inPacket p2 35990)) = some (.emitted none) := by decide +kernel

/-! ### Whole packets -/

/-- P2: the STATUS record's error fields and the state after. -/
theorem test_packet_status :
    (delivered (exec (.pktDecode p2) s0)).map
        (fun d => (d.status.coarse, d.status.badBank, d.status.badFlag[7], d.status.baseTs, d.status.unknownMode))
      = some (.dual, 0b000010000000, 0xFFEE, 4294967295, false) ∧
    rotOf (exec (.pktDecode p2) s0) = some ⟨some 60, 1⟩ := by decide +kernel

/-- V3, P4: a buffer of 1207 bytes, whatever it holds. -/
theorem test_packet_malformed :
    (delivered (exec (.pktDecode ⟨1207, p2.cells⟩) s0)).map (fun d => (d.status.malformed, d.status.len, d.points))
      = some (true, 1207, []) ∧
    rotOf (exec (.pktDecode ⟨1207, p2.cells⟩) s0) = some Rot.reset := by decide +kernel

/-! ### Session: V140 to V144 -/

/-- V140, V142, V143. -/
theorem test_session :
    rotOf (exec .sessionReset (atRot 0 (some 489) 10)) = some ⟨none, 0⟩ ∧
    ans (exec .statusRead (atRot 0 (some 60) 1)) = some (.rotation true (some 60) 1) ∧
    ans (exec .statusRead s0) = some (.rotation false none 0) := by decide +kernel

/-- V144. -/
theorem test_cfgLoad :
    rotOf (exec (.cfgLoad { cfg2 with eps := 35999 }) (atRot 0 (some 489) 10)) = some ⟨some 489, 10⟩ := by decide +kernel

/-- The memory of the reset state lists nothing: there is no transaction. -/
theorem test_reset_inv : State.reset.Inv = true ∧ State.reset.txn = none := by decide +kernel

/-! ### Witnesses: the hypotheses of each statement can be met -/

/-- A valid upper block 0, a valid lower block 11 with a distance in its last channel, and bad flags everywhere else. -/
def w2 : Buffer := pkt [(0, 0xFF), (1, 0xEE), (1100, 0xFF), (1101, 0xDD), (1197, 1), (1204, 57)]

/-- A transaction on `w2` at the largest azimuth. -/
def wt : Txn := { Txn.start w2 with azCur := 35999 }

def ws : State := { s0 with txn := some wt }

/-- DecodeOfEncodeIsIdentity: a whole packet, an external and an internal operation. -/
theorem witness_DecodeOfEncodeIsIdentity :
    (Instr.pktDecode p2).wf = true ∧ (Instr.pktDecode p2).external = true ∧ Instr.statusRead.wf = true ∧
    Instr.statusRead.external = true ∧ (Instr.rotStep 0).external = false := by
  decide +kernel

/-- EveryPacketByteIsInAField, with its inner clause: the bytes of a packet. -/
theorem witness_EveryPacketByteIsInAField :
    (List.replicate 1206 (0 : Byte)).length = 1206 ∧
    (⟨Vector.replicate 12 ⟨0, 0, Vector.replicate 32 ⟨0, 0⟩⟩, 0, 0, 0⟩ : Packet).bytes = List.replicate 1206 0 :=
  ⟨List.length_replicate, by decide +kernel⟩

/-- StepRunsTheDecodedRequest: an inner step left; no transaction; a transaction with none left; a request pending. -/
theorem witness_StepRunsTheDecodedRequest :
    (s0.inTransaction p2 (.rotStep 5)).txn = some { Txn.start p2 with todo := [.rotStep 5] } ∧ s0.pending = [] ∧
    (∀ t, s0.txn = some t → t.todo = []) ∧ (∀ t, ws.txn = some t → t.todo = []) ∧
    (s0.presented [1]).pending = .present [1] :: [] := by
  refine ⟨rfl, rfl, fun t h => ?_, fun t h => ?_, rfl⟩
  · cases (show none = some t from h)
  · have e : wt = t := Option.some.inj h
    subst e; rfl

/-- The accessors, LengthCheckOutcome's third clause, ReturnModeResolution, PairingIsGreedy, PointDistance: a transaction on
a packet of 1206 bytes. -/
theorem witness_packet : ws.txn = some wt ∧ wt.buf.len = 1206 := ⟨rfl, rfl⟩

/-- LengthCheckOutcome: its other two clauses, at the lengths next to 1206. -/
theorem witness_LengthCheckOutcome : (1205 : Nat) ≠ 1206 ∧ (1207 : Nat) ≠ 1206 ∧ s0.txn = none := ⟨by decide, by decide, rfl⟩

/-- NoPacketNoAccess: no transaction, and one on a buffer that is one byte short. -/
theorem witness_NoPacketNoAccess :
    (∀ t, s0.txn = some t → t.buf.len ≠ 1206) ∧
    (∀ t, (inPacket ⟨1205, []⟩).txn = some t → t.buf.len ≠ 1206) := by
  constructor
  · intro t h; cases (show none = some t from h)
  · intro t h
    have e : ({ Txn.start ⟨1205, []⟩ with azCur := 0 } : Txn) = t := Option.some.inj h
    subst e; decide +kernel

/-- BufferAndConfigurationAreReadOnly: an operation inside a transaction that stays open, one that closes it, and
`PKT.DECODE`. -/
theorem witness_BufferAndConfigurationAreReadOnly :
    (∃ u, exec (.ptEmit 11 31) ws = .next u) ∧ (∃ u, exec (.pktChecklen 1205) ws = .next u) ∧
    (∃ u, exec (.pktDecode w2) s0 = .next u) := ⟨⟨_, rfl⟩, ⟨_, rfl⟩, ⟨_, rfl⟩⟩

/-- BankResolution: each of its three cases. -/
theorem witness_BankResolution :
    wt.buf.flag 0 = 0xEEFF ∧ wt.buf.flag 11 = 0xDDFF ∧ wt.buf.flag 5 ≠ 0xEEFF ∧ wt.buf.flag 5 ≠ 0xDDFF := by
  decide +kernel

/-- BlockDecoding, ChannelExtraction, TagRule, PointAzimuth, PointTime, PointLaser: valid blocks of both banks; and
InvalidBlockStops: an invalid one. -/
theorem witness_blocks :
    wt.buf.bank 0 = some .upper ∧ wt.buf.bank 11 = some .lower ∧ wt.buf.bank 5 = none := by decide +kernel

/-- BlockDependsOnItsOwnBytes: two packets that differ just outside block 5 on both sides. -/
theorem witness_BlockDependsOnItsOwnBytes :
    ∀ o, 100 * (5 : BlockIx).val ≤ o → o < 100 * (5 : BlockIx).val + 100 →
      (pkt [(499, 1), (600, 1)]).byte o = (pkt []).byte o := by
  intro o h1 h2
  have a : ¬ (499 : Nat) = o := by simp at h1; omega
  have b : ¬ (600 : Nat) = o := by simp at h2; omega
  simp [Buffer.byte, pkt, Memory.byteAt, a, b]

/-- ReturnModeResolution: each of its four cases, the last one at both ends of the codes. -/
theorem witness_ReturnModeResolution :
    (pkt [(1204, 55)]).byte 1204 = 55 ∧ (pkt [(1204, 56)]).byte 1204 = 56 ∧ (pkt [(1204, 57)]).byte 1204 = 57 ∧
    ((pkt [(1204, 54)]).byte 1204 ≠ 55 ∧ (pkt [(1204, 54)]).byte 1204 ≠ 56 ∧ (pkt [(1204, 54)]).byte 1204 ≠ 57) ∧
    ((pkt [(1204, 58)]).byte 1204 ≠ 55 ∧ (pkt [(1204, 58)]).byte 1204 ≠ 56 ∧ (pkt [(1204, 58)]).byte 1204 ≠ 57) := by
  decide +kernel

/-- PairingIsGreedy: a pair, and a block that stays ONLY, in P2. -/
theorem witness_PairingIsGreedy : p2.roles[0] = .first ∧ p2.roles[1] = .last ∧ p2.roles[4] = .only := by decide +kernel

/-- OneStrongestPerPair: a channel where the first block wins (a tie, channel 1), and one where the second does. -/
theorem witness_OneStrongestPerPair :
    p2.coarse = .dual ∧ p2.roles[0] = .first ∧ (p2.dist 1 1).toNat ≤ (p2.dist 0 1).toNat ∧
    (p2.dist 0 0).toNat < (p2.dist 1 0).toNat := by decide +kernel

/-- RotationReduction: the smallest and the largest unreduced operand, in a good state. -/
theorem witness_RotationReduction :
    (atRot 100 (some 35999) 7).rot.wf = true ∧ 36000 ≤ (36000 : U16).toNat ∧ 36000 ≤ (65535 : U16).toNat := by
  decide +kernel

/-- TrackerInit: no rotation held; a step from a held one. -/
theorem witness_TrackerInit :
    s0.rot.last = none ∧ (35999 : U16).toNat < 36000 ∧ (atRot 100 (some 35999) 0).rot.valid = true ∧
    ∃ u, exec (.rotStep 0) (atRot 100 (some 35999) 0) = .next u := ⟨rfl, by decide, rfl, _, rfl⟩

/-- TrackerForward: equality and the largest jump. -/
theorem witness_TrackerForward :
    (atRot 100 (some 0) 0).rot.last = some 0 ∧ (0 : U16).toNat ≤ (0 : U16).toNat ∧ (0 : U16).toNat ≤ (35999 : U16).toNat ∧
    (35999 : U16).toNat < 36000 := by
  decide +kernel

/-- TrackerWrap: backward by EPS + 1 (V88). -/
theorem witness_TrackerWrap :
    (atRot 100 (some 1000) 0).rot.last = some 1000 ∧ (899 : U16).toNat < (1000 : U16).toNat ∧
    (atRot 100 (some 1000) 0).cfg.eps.toNat < (1000 : U16).toNat - (899 : U16).toNat := by decide +kernel

/-- TrackerHold: backward by exactly EPS (V87). -/
theorem witness_TrackerHold :
    (atRot 100 (some 1000) 0).rot.last = some 1000 ∧ (900 : U16).toNat < (1000 : U16).toNat ∧
    (1000 : U16).toNat - (900 : U16).toNat ≤ (atRot 100 (some 1000) 0).cfg.eps.toNat := by decide +kernel

/-- TrackerSequence and EpsilonExtremes: rotations at both ends of the range, EPS at both bounds. -/
theorem witness_TrackerSequence :
    (Rot.mk (some 35999) 7).wf = true ∧ (∀ r ∈ [(35999 : U16), 0, 35999], r.toNat < 36000) ∧
    35999 ≤ (35999 : U16).toNat := by
  refine ⟨by decide, fun r h => ?_, by decide⟩
  simp only [List.mem_cons, List.not_mem_nil, or_false] at h
  rcases h with rfl | rfl | rfl <;> decide

/-- PointEmission: distance 0, an invalid block, and the last channel of the last block with the smallest distance. -/
theorem witness_PointEmission :
    wt.buf.dist 0 0 = 0 ∧ wt.buf.bank 5 = none ∧ wt.buf.bank 11 = some .lower ∧ wt.buf.dist 11 31 ≠ 0 := by
  decide +kernel

/-- PointLaser: the default table is loaded. -/
theorem witness_PointLaser : ws.cfg.laserId = defaultLaserId := rfl

/-- DecodeIsTotal, MalformedBufferIsNotInterpreted, MalformedStatusAndState, StatusOfPacket, PointsInWalkOrder,
ConfigurationLoad, SessionResetEffect, StatusRead: between transactions, with buffers of length 1206 and next to it. -/
theorem witness_between : s0.txn = none ∧ p2.len = 1206 ∧ (Buffer.mk 1205 []).len ≠ 1206 ∧ (Buffer.mk 1207 p2.cells).len ≠ 1206 :=
  ⟨rfl, rfl, by decide, by decide⟩

/-- DecodeIsTheCompositionOfItsSteps. -/
theorem witness_DecodeIsTheCompositionOfItsSteps :
    (inPacket p2).txn = some (Txn.start p2) ∧ s0.txn = none ∧ (inPacket p2).rot = s0.rot ∧ (inPacket p2).cfg = s0.cfg ∧
    p2.len = 1206 := ⟨rfl, rfl, rfl, rfl, rfl⟩

/-- UnknownModeKeepsGeometry: code 0 against code 57 on the same packet. -/
theorem witness_UnknownModeKeepsGeometry :
    (∀ o, o ≠ 1204 → (pkt [(0, 0xFF), (1, 0xEE), (4, 1), (1204, 57)]).byte o = (pkt [(0, 0xFF), (1, 0xEE), (4, 1)]).byte o) ∧
    (pkt [(0, 0xFF), (1, 0xEE), (4, 1)]).byte 1204 ≠ 55 ∧ (pkt [(0, 0xFF), (1, 0xEE), (4, 1)]).byte 1204 ≠ 56 ∧
    (pkt [(0, 0xFF), (1, 0xEE), (4, 1)]).byte 1204 ≠ 57 := by
  refine ⟨fun o h => ?_, by decide +kernel, by decide +kernel, by decide +kernel⟩
  have h' : ¬ (1204 : Nat) = o := fun e => h e.symm
  simp [Buffer.byte, pkt, Memory.byteAt, h']

/-- FactoryByteIsIgnored. -/
theorem witness_FactoryByteIsIgnored : ∀ o, o ≠ 1205 → (pkt [(1204, 57), (1205, 0x22)]).byte o = (pkt [(1204, 57)]).byte o := by
  intro o h
  have h' : ¬ (1205 : Nat) = o := fun e => h e.symm
  simp [Buffer.byte, pkt, Memory.byteAt, h']

/-- BadBlockIsNotRead: block 5 of `pkt []` has flag 0; the packets differ at both ends of what is not read. -/
theorem witness_BadBlockIsNotRead :
    (pkt []).flag 5 ≠ 0xEEFF ∧ (pkt []).flag 5 ≠ 0xDDFF ∧
    (∀ o, ¬ (100 * (5 : BlockIx).val + 2 ≤ o ∧ o < 100 * (5 : BlockIx).val + 100) →
      (pkt [(502, 1), (599, 1)]).byte o = (pkt []).byte o) := by
  refine ⟨by decide +kernel, by decide +kernel, fun o h => ?_⟩
  have a : ¬ (502 : Nat) = o := by simp at h; omega
  have b : ¬ (599 : Nat) = o := by simp at h; omega
  simp [Buffer.byte, pkt, Memory.byteAt, a, b]

/-- PacketsThatEmitNothing: no valid block; eleven valid blocks with every distance 0 and one invalid one with a distance. -/
theorem witness_PacketsThatEmitNothing :
    (∀ b, (pkt []).valid b = false) ∧
    (let zero := pkt ((List.range 11).flatMap (fun b => [(100 * b, 0xFF), (100 * b + 1, 0xEE)]) ++ [(1104, 9)])
     (∀ b c, zero.valid b = true → zero.dist b c = 0) ∧ zero.valid 11 = false ∧ zero.valid 10 = true) := by
  decide +kernel

/-- SourceExampleFirstPoint. -/
theorem witness_SourceExampleFirstPoint :
    let buf := pkt [(0, 0xFF), (1, 0xEE), (2, 0x08), (3, 0x07), (4, 0xE8), (5, 0x03), (6, 0x64), (1204, 55)]
    State.reset.txn = none ∧ State.reset.rot = Rot.reset ∧ buf.len = 1206 ∧
    (∀ k ∈ [Bank.upper, .lower], ∀ c, State.reset.cfg.azCorrOf k c = 0 ∧ ∀ b, State.reset.cfg.delayOf b k c = 0) ∧
    State.reset.cfg.laserId = defaultLaserId ∧ buf.flag 0 = 0xEEFF ∧ buf.rot 0 = 1800 ∧ buf.dist 0 0 = 1000 ∧
    buf.refl 0 0 = 100 ∧ buf.rmcode = 55 := by decide +kernel

/-- OverlapIsRefused: each external operation, in a transaction. -/
theorem witness_OverlapIsRefused :
    ws.txn ≠ none ∧ (Instr.pktDecode w2).external = true ∧ Instr.sessionReset.external = true ∧
    (Instr.cfgLoad cfg2).external = true ∧ Instr.statusRead.external = true :=
  ⟨nofun, rfl, rfl, rfl, rfl⟩

/-- PowerOnIsSessionReset, ValidIsClearedOnlyByReset, WhoWritesWhat: a reset from a held rotation clears it, a step keeps
it, a configuration load and a failing length check write. -/
theorem witness_writes :
    (∃ u, exec .sessionReset (atRot 100 (some 5) 1) = .next u ∧ u.rot.valid = false ∧ u.rot ≠ (atRot 100 (some 5) 1).rot) ∧
    (∃ u, exec (.rotStep 7) (atRot 100 (some 5) 1) = .next u ∧ u.rot ≠ (atRot 100 (some 5) 1).rot) ∧
    (∃ u, exec (.rotStep 36000) (atRot 100 (some 5) 1) = .next u ∧ u.drawn ≠ (atRot 100 (some 5) 1).drawn) ∧
    (∃ u, exec (.cfgLoad Cfg.powerOn) s0 = .next u ∧ u.cfg.eps ≠ s0.cfg.eps) ∧
    (∃ u, exec (.pktChecklen 1207) ws = .next u ∧ u.sink.length = 1) :=
  ⟨⟨_, rfl, rfl, by decide⟩, ⟨_, rfl, by decide⟩, ⟨_, rfl, by decide⟩, ⟨_, rfl, by decide⟩, ⟨_, rfl, rfl⟩⟩

/-- TagsFitTheCoarseMode: a packet that emits. -/
theorem witness_TagsFitTheCoarseMode :
    (∃ u, exec (.pktDecode w2) s0 = .next u) ∧ (transact cfg2 Rot.reset w2).2.points.length = 1 :=
  ⟨⟨_, rfl⟩, by decide +kernel⟩

/-- EveryStepKeepsTheInvariant, OutsideRequestsNeverStop: a good, ready state with a packet pending. -/
theorem witness_step :
    ({ s0 with pending := [.present [1, 2, 3]] } : State).Inv = true ∧
    ({ s0 with pending := [.present [1, 2, 3]] } : State).ready = true ∧
    (∃ u, step { s0 with pending := [.present [1, 2, 3]] } = .next u) ∧ (inPacket p2 35999).Inv = true :=
  ⟨by decide +kernel, by decide +kernel, ⟨_, rfl⟩, by decide +kernel⟩

end Sys2Proof.Tests
end

section
/-! A buffer that is not 1206 bytes long (spec/30_encoding.md R95). -/

namespace Sys2Proof.Machine

/-- R95, R271: of a buffer of another length the next state holds the length and nothing else. -/
theorem exec_pktDecode_malformed {s : State} {buf : Buffer} (h : s.txn = none) (hlen : buf.len ≠ pktLen) :
    exec (.pktDecode buf) s =
      .next { s with sink := s.sink ++ [⟨malformedStatus buf.len, []⟩], answer := .nothing } := by
  rw [exec_pktDecode s buf h, transact_malformed hlen]

/-- Settles O40: between transactions the next state depends on the buffer's length alone. -/
theorem malformedBufferIsNotInterpreted : Obligations.MalformedBufferIsNotInterpreted := by
  intro s buf h hlen
  have hexec := exec_pktDecode_malformed h hlen
  refine ⟨s.rot, ⟨malformedStatus buf.len, []⟩, hexec, rfl, rfl, fun buf' hsame => ?_⟩
  have hlen' : buf'.len ≠ pktLen := hsame ▸ hlen
  rw [hexec, exec_pktDecode_malformed h hlen', hsame]

end Sys2Proof.Machine
end

section
/-! The accessors of a packet in progress (spec/40_packet_layout.md R112, R114, R116): each answers its field of the buffer and
leaves the rest of the state alone, and the field is the bytes at its offset. -/

namespace Sys2Proof.Machine

section
variable {s : State} {t : Txn} (ht : s.txn = some t) (hlen : t.buf.len = pktLen)
include ht hlen

theorem exec_pktRot (b : BlockIx) : exec (.pktRot b) s = .next { s with answer := .half (t.buf.rot b) } :=
  State.withPacket_of ht hlen

theorem exec_pktRefl (b : BlockIx) (c : ChanIx) :
    exec (.pktRefl b c) s = .next { s with answer := .byte (t.buf.refl b c) } :=
  State.withPacket_of ht hlen

theorem exec_pktRmcode : exec .pktRmcode s = .next { s with answer := .byte t.buf.rmcode } :=
  State.withPacket_of ht hlen

end

/-- Settles O9: the answer is the raw field, whose two bytes stand at the rotation's offset. -/
theorem rotAccessorReads : Obligations.RotAccessorReads := by
  intro s t b ht hlen
  refine ⟨t.buf.rot b, exec_pktRot ht hlen b, ?_⟩
  rw [Buffer.rot_toNat, memRead_two, offRot_eq]

/-- Settles O11: the answer is the field, which is the one byte at the reflectivity's offset. -/
theorem reflAccessorReads : Obligations.ReflAccessorReads := by
  intro s t b c ht hlen
  rw [exec_pktRefl ht hlen, Buffer.refl_eq, offRefl_eq]

/-- Settles O12: the answer is the field, which is the byte at 1204 alone. -/
theorem rmcodeAccessorReads : Obligations.RmcodeAccessorReads := by
  intro s t ht hlen
  rw [exec_pktRmcode ht hlen, Buffer.rmcode_eq]

end Sys2Proof.Machine
end

section
/-! `RM.RESOLVE` (spec/42_return_mode.md R151): a known return-mode code is answered and nothing else changes; an unknown one
is also recorded in the STATUS of the transaction in progress. -/

namespace Sys2Proof.Machine

/-- R151: a code other than the three named ones has no coarse mode. -/
theorem coarseOfCode_unknown {k : Byte} (h55 : k ≠ 55) (h56 : k ≠ 56) (h57 : k ≠ 57) : coarseOfCode k = .unknown := by
  rw [coarseOfCode, if_neg h55, if_neg h56, if_neg h57]

theorem coarse_eq_coarseOfCode (buf : Buffer) : buf.coarse = coarseOfCode (buf.byte rmOff) := by
  rw [Buffer.coarse, Buffer.rmcode_eq]

theorem modeError_known {buf : Buffer} (h : buf.coarse ≠ .unknown) : modeError buf = none := by
  unfold modeError
  split
  · contradiction
  all_goals rfl

theorem modeError_unknown {buf : Buffer} (h : buf.coarse = .unknown) :
    modeError buf = some (.unknownReturnMode (buf.byte rmOff)) := by
  rw [modeError, h, Buffer.rmcode_eq]

/-- The whole state after an error is raised in a transaction (R278). -/
theorem State.raise_some_of {s : State} {t : Txn} (ht : s.txn = some t) (e : Error) :
    s.raise (some e) = { s with txn := some { t with st := t.st.record e } } := by
  simp [State.raise, ht]

section
variable {s : State} {t : Txn} (ht : s.txn = some t) (hlen : t.buf.len = pktLen)
include ht hlen

theorem exec_rmResolve :
    exec .rmResolve s = .next ((s.raise (modeError t.buf)).returns (.coarse t.buf.coarse)) :=
  State.withPacket_of ht hlen

theorem exec_rmResolve_known {m : Coarse} (hcoarse : t.buf.coarse = m) (hm : m ≠ .unknown) :
    exec .rmResolve s = .next { s with answer := .coarse m } := by
  subst hcoarse
  rw [exec_rmResolve ht hlen, modeError_known hm, State.raise_none, State.returns]

theorem exec_rmResolve_unknown (hcoarse : t.buf.coarse = .unknown) :
    exec .rmResolve s =
      .next { s with
        txn := some { t with st := t.st.record (.unknownReturnMode (t.buf.byte rmOff)) }
        answer := .coarse .unknown } := by
  rw [exec_rmResolve ht hlen, modeError_unknown hcoarse, State.raise_some_of ht, hcoarse, State.returns]

end

/-- Settles O23: the byte at 1204 decides the coarse mode, and the coarse mode decides whether an error is recorded. -/
theorem returnModeResolution : Obligations.ReturnModeResolution := by
  intro s t ht hlen
  have hcoarse := coarse_eq_coarseOfCode t.buf
  refine ⟨fun h => ?_, fun h => ?_, fun h => ?_, fun h55 h56 h57 => ?_⟩
  · exact exec_rmResolve_known ht hlen (by rw [hcoarse, h]; rfl) nofun
  · exact exec_rmResolve_known ht hlen (by rw [hcoarse, h]; rfl) nofun
  · exact exec_rmResolve_known ht hlen (by rw [hcoarse, h]; rfl) nofun
  · exact exec_rmResolve_unknown ht hlen (hcoarse.trans (coarseOfCode_unknown h55 h56 h57))

end Sys2Proof.Machine
end

section
/-! The tracker (spec/43_rotation_tracker.md R183, R184): the cases of `ROT.STEP` that take the operand and count nothing, and
that `ROT.valid`, once 1, stays 1 until `SESSION.RESET`. -/

namespace Sys2Proof.Machine

/-- The whole state after `ROT.STEP` of a reduced operand: `ROT` and the current azimuth are those of its case (R182). -/
theorem exec_rotStep_reduced {s : State} {r az : U16} {rot : Rot} (hr : r.toNat < rotMod)
    (htrack : track s.cfg.eps s.rot r = (rot, az)) :
    exec (.rotStep r) s =
      .next { s with
        rot := rot
        txn := s.txn.map fun t => { t with azCur := az }
        answer := .half az } := by
  have hstep : s.trackStep r = (rot, az) := (trackStep_of_lt hr).trans htrack
  simp only [exec, execRotStep, State.stepTracker, State.returns, hstep, if_pos hr]

/-- R183: with no rotation held the operand is taken. -/
theorem track_init {eps r : U16} {rot : Rot} (hlast : rot.last = none) :
    track eps rot r = (⟨some r, rot.rev⟩, r) := by
  simp only [track, trackCase, hlast]

/-- R184: an operand not below the rotation held is taken. -/
theorem track_forward {eps r v : U16} {rot : Rot} (hlast : rot.last = some v) (hle : v ≤ r) :
    track eps rot r = (⟨some r, rot.rev⟩, r) := by
  simp only [track, trackCase, hlast, if_pos hle]

theorem transact_valid {cfg : Cfg} {rot : Rot} {buf : Buffer} (hvalid : rot.valid = true) :
    (transact cfg rot buf).1.valid = true := by
  by_cases hlen : buf.len = pktLen
  · rw [transact_packet hlen]
    exact walk_valid _ _ _ _ hvalid
  · rw [transact_malformed hlen]
    exact hvalid

/-- R21: only `SESSION.RESET` takes `ROT.valid` back to 0. -/
theorem exec_keeps_valid {s u : State} {i : Instr} (h : exec i s = .next u) (hvalid : s.rot.valid = true)
    (hi : i ≠ .sessionReset) : u.rot.valid = true := by
  rcases exec_rot h with hrot | ⟨_, -, hrot⟩ | ⟨r, -, hrot⟩ | ⟨hreset, -⟩
  · rw [hrot]; exact hvalid
  · rw [hrot]; exact transact_valid hvalid
  · rw [hrot]; exact trackStep_valid s r
  · exact absurd hreset hi

/-- Settles O28: the INIT case of the tracker, and the case analysis of what writes `ROT`. -/
theorem trackerInit : Obligations.TrackerInit :=
  ⟨fun _ _ hr hlast => exec_rotStep_reduced hr (track_init hlast), fun _ _ _ h hvalid hi => exec_keeps_valid h hvalid hi⟩

/-- Settles O29: the FWD case of the tracker; at equality it writes back the rotation already held. -/
theorem trackerForward : Obligations.TrackerForward := by
  intro s r v hr hlast hle
  refine ⟨exec_rotStep_reduced hr (track_forward hlast hle), ?_⟩
  rintro rfl
  rw [← hlast]

end Sys2Proof.Machine
end

section
/-! The first record of a packet (spec/44_point_assembler.md R220, R230, R233): channel 0 of block 0, where that block is valid
and that channel has a return, at the azimuth of the packet's first tracker step. -/

namespace Sys2Proof.Machine

section
variable {cfg : Cfg} {buf : Buffer} {b : BlockIx} {k : Bank}

/-- R220: channel 0 comes first in its block. -/
theorem blockPoints_head? {az : U16} (hbank : buf.bank b = some k) (hdist : buf.dist b 0 ≠ 0) :
    (blockPoints cfg buf az b).head? = some (pointAt cfg buf az b k 0) := by
  have hemit : emitAt cfg buf az b 0 = some (pointAt cfg buf az b k 0) := emitAt_eq_some.2 ⟨k, hbank, hdist, rfl⟩
  rw [blockPoints, List.finRange_succ, List.filterMap_cons_some hemit, List.head?_cons]

/-- R230: the first walked block's points come first, at the azimuth of its own tracker step. -/
theorem walk_cons_head? {rest : List BlockIx} {rot : Rot} (hbank : buf.bank b = some k) (hdist : buf.dist b 0 ≠ 0) :
    (walk cfg buf (b :: rest) rot).2.head? =
      some (pointAt cfg buf (track cfg.eps rot (buf.reduced b)).2 b k 0) := by
  rw [walk_cons_valid ((valid_iff buf b).2 ⟨k, hbank⟩), List.head?_append, blockPoints_head? hbank hdist, Option.some_or]

theorem transact_head? {rot : Rot} (hlen : buf.len = pktLen) (hbank : buf.bank 0 = some k) (hdist : buf.dist 0 0 ≠ 0) :
    (transact cfg rot buf).2.points.head? =
      some (pointAt cfg buf (track cfg.eps rot (buf.reduced 0)).2 0 k 0) := by
  rw [transact_packet hlen, List.finRange_succ]
  exact walk_cons_head? hbank hdist

/-- R131: the upper sentinel names the upper bank. -/
theorem bank_of_flagUpper (hflag : buf.flag b = flagUpper) : buf.bank b = some .upper := by
  rw [Buffer.bank, hflag, bankOfFlag, if_pos rfl]

/-- R159: in a STRONGEST packet every tag is single-strongest, whatever the distances. -/
theorem tag_of_rmStrongest (hcode : buf.rmcode = rmStrongest) (c : ChanIx) : buf.tag b c = .singleStrongest := by
  have hcoarse : buf.coarse = .strongest := by rw [Buffer.coarse, hcode, coarseOfCode, if_pos rfl]
  rw [Buffer.tag, hcoarse, Buffer.tagWith, tagOf]

/-- R214: the default table gives an upper channel its own index. -/
theorem laserIdOf_default_upper (hlaser : cfg.laserId = defaultLaserId) (c : ChanIx) :
    cfg.laserIdOf .upper c = BitVec.ofNat 8 c.val := by
  simp [Cfg.laserIdOf, hlaser, defaultLaserId, PerBank.get]

end

/-- R181: reduction leaves a reduced rotation alone. -/
theorem reduceRotation_of_lt {raw : U16} (h : raw.toNat < rotMod) : reduceRotation raw = raw :=
  BitVec.eq_of_toNat_eq (by rw [reduceRotation_toNat, Nat.mod_eq_of_lt h])

/-- R212: a correction of 0 leaves a reduced azimuth alone. -/
theorem correctedAzimuth_zero {az : U16} (h : az.toNat < rotMod) : correctedAzimuth az 0 = az := by
  have hmod := correctedAzimuth_toNat az 0
  have hlt : az.toNat < 36000 := h
  apply BitVec.eq_of_toNat_eq
  omega

/-- Settles O49: the first record is that of channel 0 of block 0, and each of its fields is the example's. -/
theorem sourceExampleFirstPoint : Obligations.SourceExampleFirstPoint := by
  intro s buf htxn hrot hlen hcorr hdelay hlaser hflag hraw hdist hrefl hcode
  have hreduced : buf.reduced 0 = 1800 := by rw [Buffer.reduced, hraw, reduceRotation_of_lt (by decide)]
  have haz : (track s.cfg.eps s.rot (buf.reduced 0)).2 = 1800 := by rw [hrot, track_init (rot := Rot.reset) rfl, hreduced]
  have hfirst := transact_head? (cfg := s.cfg) (rot := s.rot) hlen (bank_of_flagUpper hflag) (by rw [hdist]; decide)
  rw [haz] at hfirst
  refine ⟨_, _, _, exec_pktDecode s buf htxn, hfirst, rfl, ?laserId, rfl, hdist, ?distance, hrefl, ?azimuth,
    hdelay 0 .upper 0, ?timestamp, tag_of_rmStrongest hcode 0⟩
  case laserId => exact laserIdOf_default_upper hlaser 0
  case distance =>
    have hcount : (1000 : U16).toNat = 1000 := rfl
    norm_num [pointAt, hdist, physicalDistance, hcount]
  case azimuth => rw [pointAt, hcorr, correctedAzimuth_zero (by decide)]
  case timestamp => rw [pointAt, timestampOf_toNat, hdelay]; rfl

end Sys2Proof.Machine
end

section
/-! Two packets that differ at the return-mode byte only (spec/60_exceptions.md R274). What the walk reads of a packet, other
than the tag of a point, is the flags, the rotations, the channel units and the timestamp; so the walk of the packet whose code
is unknown is the walk of the other one with every tag *invalid*. -/

namespace Sys2Proof.Machine

/-- The two packets agree in every field but the return-mode code and the factory byte. -/
structure SameGeometry (buf buf' : Buffer) : Prop where
  flag : ∀ b, buf.flag b = buf'.flag b
  rot  : ∀ b, buf.rot b = buf'.rot b
  dist : ∀ b c, buf.dist b c = buf'.dist b c
  refl : ∀ b c, buf.refl b c = buf'.refl b c
  ts   : buf.ts = buf'.ts

/-- The point as a packet of unknown return mode has it (R159, R274). -/
def Point.asInvalid (p : Point) : Point := { p with tag := .invalid }

/-- R61: blocks and timestamp end below the return-mode byte. -/
theorem sameGeometry_of_bytes {buf buf' : Buffer} (h : ∀ o, o < 1204 → buf.byte o = buf'.byte o) :
    SameGeometry buf buf' where
  flag b := Buffer.flag_congr fun o _ ho => h o (by omega)
  rot b := Buffer.rot_congr fun o _ ho => h o (by omega)
  dist b c := Buffer.dist_congr fun o _ ho => h o (by omega)
  refl b c := Buffer.refl_congr (h _ (by omega))
  ts := Buffer.ts_congr fun o _ ho => h o ho

/-- R159: under an unknown return mode every tag is *invalid*, whatever the distances. -/
theorem tag_of_unknown {buf : Buffer} (hcoarse : buf.coarse = .unknown) (b : BlockIx) (c : ChanIx) :
    buf.tag b c = .invalid := by
  rw [Buffer.tag, hcoarse, Buffer.tagWith, tagOf]

namespace SameGeometry

variable {buf buf' : Buffer} (hgeo : SameGeometry buf buf')
include hgeo

theorem bank (b : BlockIx) : buf.bank b = buf'.bank b := by rw [Buffer.bank, Buffer.bank, hgeo.flag]

theorem valid (b : BlockIx) : buf.valid b = buf'.valid b := by rw [Buffer.valid, Buffer.valid, hgeo.bank]

theorem reduced (b : BlockIx) : buf.reduced b = buf'.reduced b := by rw [Buffer.reduced, Buffer.reduced, hgeo.rot]

theorem headerStatus_badBank : (headerStatus buf).badBank = (headerStatus buf').badBank := by
  obtain ⟨hbits, -⟩ := headerStatus_spec buf
  obtain ⟨hbits', -⟩ := headerStatus_spec buf'
  refine BitVec.eq_of_getLsbD_eq fun i hi => ?_
  rw [hbits ⟨i, hi⟩, hbits' ⟨i, hi⟩, hgeo.valid]

theorem headerStatus_badFlag : (headerStatus buf).badFlag = (headerStatus buf').badFlag := by
  obtain ⟨-, hflags, -⟩ := headerStatus_spec buf
  obtain ⟨-, hflags', -⟩ := headerStatus_spec buf'
  refine Vector.ext fun i hi => ?_
  have hentry := hflags ⟨i, hi⟩
  rw [hgeo.valid, hgeo.flag, ← hflags' ⟨i, hi⟩] at hentry
  exact hentry

theorem headerStatus_baseTs : (headerStatus buf).baseTs = (headerStatus buf').baseTs := by
  rw [Machine.headerStatus_baseTs, Machine.headerStatus_baseTs, hgeo.ts]

variable (hcoarse : buf.coarse = .unknown)
include hcoarse

theorem pointAt_asInvalid (cfg : Cfg) (az : U16) (b : BlockIx) (k : Bank) (c : ChanIx) :
    pointAt cfg buf az b k c = (pointAt cfg buf' az b k c).asInvalid := by
  simp only [pointAt, Point.asInvalid, hgeo.dist, hgeo.refl, hgeo.ts, tag_of_unknown hcoarse]

/-- A point is emitted for the one packet exactly if it is for the other. -/
theorem emitAt_asInvalid (cfg : Cfg) (az : U16) (b : BlockIx) (c : ChanIx) :
    emitAt cfg buf az b c = (emitAt cfg buf' az b c).map Point.asInvalid := by
  unfold emitAt
  rw [hgeo.bank, hgeo.dist]
  cases buf'.bank b with
  | none => rfl
  | some k =>
    by_cases hdist : buf'.dist b c = 0
    · simp only [if_pos hdist, Option.map_none]
    · simp only [if_neg hdist, Option.map_some, hgeo.pointAt_asInvalid hcoarse]

theorem blockPoints_asInvalid (cfg : Cfg) (az : U16) (b : BlockIx) :
    blockPoints cfg buf az b = (blockPoints cfg buf' az b).map Point.asInvalid := by
  have hemit : emitAt cfg buf az b = fun c => (emitAt cfg buf' az b c).map Point.asInvalid :=
    funext (hgeo.emitAt_asInvalid hcoarse cfg az b)
  rw [blockPoints, blockPoints, List.map_filterMap, hemit]

/-- R274: the tracker takes the same steps, and each block's points change only in their tag. -/
theorem walk_asInvalid (cfg : Cfg) (bs : List BlockIx) (rot : Rot) :
    walk cfg buf bs rot = ((walk cfg buf' bs rot).1, (walk cfg buf' bs rot).2.map Point.asInvalid) := by
  induction bs generalizing rot with
  | nil => rfl
  | cons b rest ih =>
    have hvalid := hgeo.valid b
    cases hv : buf'.valid b with
    | false => rw [walk_cons_invalid (hvalid.trans hv), walk_cons_invalid hv, ih]
    | true =>
      rw [walk_cons_valid (hvalid.trans hv), walk_cons_valid hv, hgeo.reduced, ih,
        hgeo.blockPoints_asInvalid hcoarse, List.map_append]

end SameGeometry

/-- Settles O45: the walks agree but for the tag, and the STATUS fields named depend on flags and timestamp alone. -/
theorem unknownModeKeepsGeometry : Obligations.UnknownModeKeepsGeometry := by
  intro s buf buf' htxn hlen hlen' hsame h55 h56 h57
  have hgeo : SameGeometry buf buf' := sameGeometry_of_bytes fun o ho => (hsame o (Nat.ne_of_lt ho)).symm
  have hcoarse : buf.coarse = .unknown := (coarse_eq_coarseOfCode buf).trans (coarseOfCode_unknown h55 h56 h57)
  have hwalk := hgeo.walk_asInvalid hcoarse s.cfg (List.finRange 12) s.rot
  have hexec := exec_pktDecode s buf htxn
  have hexec' := exec_pktDecode s buf' htxn
  rw [transact_packet hlen, hwalk] at hexec
  rw [transact_packet hlen'] at hexec'
  obtain ⟨-, -, hunknown, -⟩ := headerStatus_spec buf
  exact ⟨_, _, _, hexec, hexec', (headerStatus_coarse buf).trans hcoarse, hunknown.2 hcoarse,
    hgeo.headerStatus_badBank, hgeo.headerStatus_badFlag, hgeo.headerStatus_baseTs, rfl⟩

end Sys2Proof.Machine
end

section
/-! Buffers as byte sequences (spec/20_memory.md R51, R54, spec/30_encoding.md R80 to R86, R98): presenting bytes and listing them
are inverse to each other on canonical buffers, and a packet's fields are exactly what its 1206 bytes say. -/

namespace Sys2Proof

/-! ### Presenting bytes and listing them -/

theorem Memory.wfFrom_cons {lo len a : Nat} {v : Byte} {rest : Memory} :
    Memory.wfFrom lo len ((a, v) :: rest) = true ↔
      lo ≤ a ∧ a < len ∧ v ≠ 0 ∧ Memory.wfFrom (a + 1) len rest = true := by
  simp only [Memory.wfFrom, Bool.and_eq_true, decide_eq_true_eq, and_assoc]

theorem Memory.byteAt_cons_self (a : Nat) (v : Byte) (rest : Memory) : Memory.byteAt ((a, v) :: rest) a = v := by
  simp only [Memory.byteAt, if_true]

theorem Memory.byteAt_cons_of_lt {a o : Nat} (v : Byte) (rest : Memory) (h : a < o) :
    Memory.byteAt ((a, v) :: rest) o = rest.byteAt o := by
  simp only [Memory.byteAt, if_neg (Nat.ne_of_lt h)]

/-- The cells made of what canonical cells hold are those cells: equal contents are equal data. -/
theorem cellsFrom_byteAt {n lo : Nat} {m : Memory} (h : Memory.wfFrom lo (lo + n) m = true) :
    cellsFrom lo ((List.range' lo n).map m.byteAt) = m := by
  induction n generalizing lo m with
  | zero =>
    cases m with
    | nil => rfl
    | cons cell rest =>
      obtain ⟨hlo, hlen, -⟩ := Memory.wfFrom_cons.1 h
      omega
  | succ n ih =>
    have hend : lo + (n + 1) = lo + 1 + n := by omega
    rw [hend] at h
    rw [List.range'_succ, List.map_cons, cellsFrom]
    cases m with
    | nil => exact ih (m := []) rfl
    | cons cell rest =>
      obtain ⟨a, v⟩ := cell
      obtain ⟨hlo, hlen, hv, hrest⟩ := Memory.wfFrom_cons.1 h
      rcases Nat.eq_or_lt_of_le hlo with rfl | hlt
      · have hbytes : (List.range' (lo + 1) n).map (Memory.byteAt ((lo, v) :: rest)) =
            (List.range' (lo + 1) n).map (Memory.byteAt rest) :=
          List.map_congr_left fun o ho => Memory.byteAt_cons_of_lt v rest (List.mem_range'_1.1 ho).1
        rw [Memory.byteAt_cons_self, if_neg hv, hbytes, ih hrest]
      · have hskip : Memory.wfFrom (lo + 1) (lo + 1 + n) ((a, v) :: rest) = true :=
          Memory.wfFrom_cons.2 ⟨hlt, hlen, hv, hrest⟩
        rw [if_pos (Memory.byteAt_of_lt hskip (Nat.lt_succ_self lo)), ih hskip]

/-- Listing a canonical buffer and presenting the list gives the buffer back. -/
theorem Buffer.ofBytes_toBytes {buf : Buffer} (h : buf.wf = true) : Buffer.ofBytes buf.toBytes = buf := by
  obtain ⟨len, cells⟩ := buf
  have hcells : Memory.wfFrom 0 (0 + len) cells = true := by rwa [Nat.zero_add]
  have hback : cellsFrom 0 ((List.range' 0 len).map cells.byteAt) = cells := cellsFrom_byteAt hcells
  rw [← List.range_eq_range'] at hback
  simp only [Buffer.ofBytes, Buffer.toBytes, List.length_map, List.length_range, Buffer.mk.injEq, true_and]
  exact hback

theorem Buffer.byte_ofBytes_of_lt {bytes : List Byte} {o : Nat} (h : o < bytes.length) :
    (Buffer.ofBytes bytes).byte o = bytes[o] := by
  rw [Buffer.byte_ofBytes, List.getD_eq_getElem _ _ h]

/-- Presenting a list of bytes and listing the buffer gives the list back. -/
theorem Buffer.toBytes_ofBytes (bytes : List Byte) : (Buffer.ofBytes bytes).toBytes = bytes := by
  refine List.ext_getElem (by simp [Buffer.toBytes]) fun o _ ho => ?_
  simp only [Buffer.toBytes, List.getElem_map, List.getElem_range, Buffer.byte_ofBytes_of_lt ho]

/-- Settles O3: listing gives the bytes back, and each read is the presented byte. -/
theorem presentedBytesAreKept : Obligations.PresentedBytesAreKept := fun bytes =>
  ⟨Buffer.toBytes_ofBytes bytes, Buffer.ofBytes_len bytes, fun _ => Buffer.byte_ofBytes_of_lt⟩

/-! ### Requests -/

theorem external_iff (i : Instr) :
    i.external = true ↔ (∃ buf, i = .pktDecode buf) ∨ i = .sessionReset ∨ (∃ cfg, i = .cfgLoad cfg) ∨ i = .statusRead := by
  cases i <;> simp [Instr.external]

/-- R98: nothing outside asks for an internal operation. -/
theorem encode_of_internal {i : Instr} (h : i.external = false) : encode i = none := by
  cases i <;> cases h <;> rfl

theorem decode_encode {i : Instr} (hwf : i.wf = true) (hext : i.external = true) :
    ∃ q, encode i = some q ∧ decode q = i := by
  rcases (external_iff i).1 hext with ⟨buf, rfl⟩ | rfl | ⟨cfg, rfl⟩ | rfl
  · exact ⟨_, rfl, congrArg Instr.pktDecode (Buffer.ofBytes_toBytes hwf)⟩
  · exact ⟨_, rfl, rfl⟩
  · exact ⟨_, rfl, rfl⟩
  · exact ⟨_, rfl, rfl⟩

/-- Settles O2: a presented buffer is read back by `Buffer.ofBytes_toBytes`, and what a request decodes to is external. -/
theorem decodeOfEncodeIsIdentity : Obligations.DecodeOfEncodeIsIdentity := by
  refine ⟨fun _ => decode_encode, fun i h => ⟨encode_of_internal h, fun q hq => ?_⟩, external_iff⟩
  obtain ⟨-, hext⟩ := Laws.DecodeWf.of_decode hq
  rw [h] at hext
  cases hext

/-! ### Bytes at an offset

`BytesAt buf o bs` says that the bytes `bs` stand in the buffer from offset `o`. For the bytes of a field, a unit, a block and a
packet it holds exactly when the buffer's field, unit, block or packet is that one. -/

/-- The bytes `bs` stand in `buf` from offset `o` (R54, R61). -/
def BytesAt (buf : Buffer) : Nat → List Byte → Prop
  | _, [] => True
  | o, v :: rest => buf.byte o = v ∧ BytesAt buf (o + 1) rest

theorem bytesAt_append {buf : Buffer} {o : Nat} {xs ys : List Byte} :
    BytesAt buf o (xs ++ ys) ↔ BytesAt buf o xs ∧ BytesAt buf (o + xs.length) ys := by
  induction xs generalizing o with
  | nil => simp [BytesAt]
  | cons v rest ih =>
    have hend : o + (rest.length + 1) = o + 1 + rest.length := by omega
    simp only [List.cons_append, BytesAt, ih, and_assoc, List.length_cons, hend]

theorem bytesAt_singleton {buf : Buffer} {o : Nat} {v : Byte} : BytesAt buf o [v] ↔ buf.byte o = v := by
  simp [BytesAt]

/-- The bytes at an offset are determined by the buffer. -/
theorem bytesAt_iff {buf : Buffer} {o : Nat} {bs : List Byte} :
    BytesAt buf o bs ↔ bs = (List.range' o bs.length).map buf.byte := by
  induction bs generalizing o with
  | nil => simp [BytesAt]
  | cons v rest ih =>
    simp only [BytesAt, ih, List.length_cons, List.range'_succ, List.map_cons, List.cons.injEq, eq_comm (a := v)]

/-- A whole presented buffer: the bytes from offset 0 are the presented ones. -/
theorem bytesAt_ofBytes {bytes bs : List Byte} (hlen : bs.length = bytes.length) :
    BytesAt (Buffer.ofBytes bytes) 0 bs ↔ bs = bytes := by
  have hlist : (List.range' 0 bs.length).map (Buffer.ofBytes bytes).byte = bytes := by
    rw [hlen, ← List.range_eq_range']
    exact Buffer.toBytes_ofBytes bytes
  rw [bytesAt_iff, hlist]

/-- Equally long pieces one after another stand each at its own offset. -/
theorem bytesAt_flatMap {α : Type} {buf : Buffer} {f : α → List Byte} {n : Nat} (hf : ∀ x, (f x).length = n) {o : Nat}
    {l : List α} : BytesAt buf o (l.flatMap f) ↔ ∀ i, (h : i < l.length) → BytesAt buf (o + n * i) (f l[i]) := by
  induction l generalizing o with
  | nil => simp [BytesAt]
  | cons x rest ih =>
    have hoff : ∀ i, o + n + n * i = o + n * (i + 1) := fun i => by rw [Nat.mul_succ]; omega
    rw [List.flatMap_cons, bytesAt_append, hf, ih]
    simp only [hoff]
    constructor
    · rintro ⟨hx, hrest⟩ (_ | i) h
      · exact hx
      · exact hrest i (Nat.lt_of_succ_lt_succ h)
    · exact fun h => ⟨h 0 (Nat.zero_lt_succ _), fun i hi => h (i + 1) (Nat.succ_lt_succ hi)⟩

@[simp] theorem leBytes_length (n v : Nat) : (leBytes n v).length = n := by
  induction n generalizing v with
  | zero => rfl
  | succ n ih => rw [leBytes, List.length_cons, ih]

/-- R54: a number stands at an offset, least significant byte first, exactly when reading there gives it. -/
theorem bytesAt_leBytes {buf : Buffer} {o n v : Nat} (hv : v < 256 ^ n) :
    BytesAt buf o (leBytes n v) ↔ memRead buf o n = v := by
  induction n generalizing o v with
  | zero =>
    have hv0 : v = 0 := by simpa using hv
    simp [leBytes, BytesAt, memRead, hv0]
  | succ n ih =>
    have hdiv : v / 256 < 256 ^ n := by
      rw [Nat.div_lt_iff_lt_mul (by decide), ← Nat.pow_succ]
      exact hv
    have hlow := (buf.byte o).isLt
    rw [leBytes, BytesAt, ih hdiv, memRead, ← BitVec.toNat_inj, BitVec.toNat_ofNat]
    omega

theorem bytesAt_u16 {buf : Buffer} {o : Nat} {v : U16} :
    BytesAt buf o (leBytes 2 v.toNat) ↔ memRead buf o 2 = v.toNat := bytesAt_leBytes v.isLt

theorem bytesAt_u32 {buf : Buffer} {o : Nat} {v : U32} :
    BytesAt buf o (leBytes 4 v.toNat) ↔ memRead buf o 4 = v.toNat := bytesAt_leBytes v.isLt

/-! ### Fields of a packet -/

theorem length_flatMap_of_length {α : Type} {f : α → List Byte} {n : Nat} (hf : ∀ x, (f x).length = n) (l : List α) :
    (l.flatMap f).length = n * l.length := by
  simp [List.length_flatMap, hf, Nat.mul_comm]

theorem ChannelUnit.bytes_length (u : ChannelUnit) : u.bytes.length = unitLen := by simp [ChannelUnit.bytes]

theorem Block.bytes_length (k : Block) : k.bytes.length = blockLen := by
  simp [Block.bytes, length_flatMap_of_length ChannelUnit.bytes_length, unitLen, blockLen]

theorem Packet.bytes_length (p : Packet) : p.bytes.length = pktLen := by
  simp [Packet.bytes, length_flatMap_of_length Block.bytes_length, blockLen, pktLen]

theorem bytesAt_channelUnit {buf : Buffer} {b : BlockIx} {c : ChanIx} {u : ChannelUnit} :
    BytesAt buf (offDist b c) u.bytes ↔ buf.channelUnit b c = u := by
  obtain ⟨dist, refl⟩ := u
  have hrefl : offDist b c + 2 = offRefl b c := by rw [offDist_eq, offRefl_eq]; omega
  rw [ChannelUnit.bytes, bytesAt_append, bytesAt_u16, leBytes_length, hrefl, bytesAt_singleton,
    ← Buffer.dist_toNat, ← Buffer.refl_eq, BitVec.toNat_inj, Buffer.channelUnit, ChannelUnit.mk.injEq]

theorem ofFn_eq_iff {α : Type} {n : Nat} {f : Fin n → α} {v : Vector α n} :
    Vector.ofFn f = v ↔ ∀ i, (h : i < n) → f ⟨i, h⟩ = v[i] := by
  constructor
  · rintro rfl i h
    exact (Vector.getElem_ofFn h).symm
  · exact fun h => Vector.ext fun i hi => (Vector.getElem_ofFn hi).trans (h i hi)

theorem bytesAt_units {buf : Buffer} {b : BlockIx} {units : Vector ChannelUnit 32} :
    BytesAt buf (offRot b + 2) (units.toList.flatMap ChannelUnit.bytes) ↔
      Vector.ofFn (fun c => buf.channelUnit b c) = units := by
  rw [bytesAt_flatMap ChannelUnit.bytes_length, ofFn_eq_iff]
  simp only [Vector.length_toList, Vector.getElem_toList]
  exact forall_congr' fun i => forall_congr' fun h => bytesAt_channelUnit (c := ⟨i, h⟩)

theorem bytesAt_block {buf : Buffer} {b : BlockIx} {k : Block} :
    BytesAt buf (offFlag b) k.bytes ↔ buf.block b = k := by
  obtain ⟨flag, rot, units⟩ := k
  rw [Block.bytes, bytesAt_append, bytesAt_append, bytesAt_u16, leBytes_length,
    bytesAt_u16, List.length_append, leBytes_length, leBytes_length]
  change (memRead buf (offFlag b) 2 = _ ∧ memRead buf (offRot b) 2 = _) ∧ BytesAt buf (offRot b + 2) _ ↔ _
  rw [bytesAt_units, ← Buffer.flag_toNat, ← Buffer.rot_toNat, BitVec.toNat_inj, BitVec.toNat_inj, Buffer.block,
    Block.mk.injEq, and_assoc]

/-- The fields of a buffer that has a packet's length (R86). -/
def Buffer.packet (buf : Buffer) : Packet := ⟨Vector.ofFn fun b => buf.block b, buf.ts, buf.rmcode, buf.factory⟩

theorem Packet.ofBuffer_of_len {buf : Buffer} (h : buf.len = pktLen) : Packet.ofBuffer buf = some buf.packet :=
  if_pos h

theorem bytesAt_blocks {buf : Buffer} {blocks : Vector Block 12} :
    BytesAt buf 0 (blocks.toList.flatMap Block.bytes) ↔ Vector.ofFn (fun b => buf.block b) = blocks := by
  rw [bytesAt_flatMap Block.bytes_length, ofFn_eq_iff]
  simp only [Vector.length_toList, Vector.getElem_toList, Nat.zero_add]
  exact forall_congr' fun i => forall_congr' fun h => bytesAt_block (b := ⟨i, h⟩)

/-- R81, R86: the bytes of a packet stand at offset 0 exactly when it is the packet the fields are read as. -/
theorem bytesAt_packet {buf : Buffer} {p : Packet} : BytesAt buf 0 p.bytes ↔ buf.packet = p := by
  obtain ⟨blocks, ts, rmcode, factoryHi⟩ := p
  have hblocks : (blocks.toList.flatMap Block.bytes).length = trailerOff := by
    simp [length_flatMap_of_length Block.bytes_length, blockLen, trailerOff]
  rw [Packet.bytes, bytesAt_append, bytesAt_append, bytesAt_blocks, List.length_append, hblocks, leBytes_length,
    Nat.zero_add, Nat.zero_add, bytesAt_u32, ← Buffer.ts_toNat, BitVec.toNat_inj]
  change _ ∧ (buf.byte rmOff = rmcode ∧ buf.byte offFactory = factoryHi ∧ True) ↔ _
  rw [← Buffer.rmcode_eq, ← Buffer.factory_eq, Buffer.packet, Packet.mk.injEq, and_assoc, and_true]

/-- Settles O4: a packet's own bytes are presented from offset 0. -/
theorem packetFieldsReadBack : Obligations.PacketFieldsReadBack := by
  intro p
  have hread : (Buffer.ofBytes p.bytes).packet = p := bytesAt_packet.1 ((bytesAt_ofBytes rfl).2 rfl)
  refine ⟨p.bytes_length, ?_⟩
  rw [Packet.ofBuffer_of_len p.bytes_length, hread]

/-- Settles O5: of 1206 presented bytes a packet has these bytes exactly when it is the one read. -/
theorem everyPacketByteIsInAField : Obligations.EveryPacketByteIsInAField := by
  intro bytes hlen
  have hbytes (q : Packet) : q.bytes = bytes ↔ (Buffer.ofBytes bytes).packet = q := by
    rw [← bytesAt_packet, bytesAt_ofBytes (q.bytes_length.trans hlen.symm)]
  exact ⟨(Buffer.ofBytes bytes).packet, Packet.ofBuffer_of_len hlen, (hbytes _).2 rfl, fun q hq => ((hbytes q).1 hq).symm⟩

/-- Settles O6: each width spelt out in bytes. -/
theorem readsAreLittleEndian : Obligations.ReadsAreLittleEndian := by
  intro buf o
  refine ⟨memRead_one buf o, memRead_two buf o, ?_⟩
  rw [memRead_four, memRead_two, memRead_two, Nat.add_assoc o 2 1]
  omega

/-- Settles O1: the table's words and the worked bytes are closed data, which the decoder evaluates. -/
theorem workedEncodingsDecode : Obligations.WorkedEncodingsDecode := by
  refine ⟨rfl, rfl, rfl, rfl, rfl, rfl, ?head, ?trailer⟩
  case head => decide
  case trailer => decide

/-- Settles O20: each field of the block is determined by the bytes it is read from. -/
theorem blockDependsOnItsOwnBytes : Obligations.BlockDependsOnItsOwnBytes := by
  intro buf buf' b hsame
  have hflag : buf.flag b = buf'.flag b := Buffer.flag_congr fun o h1 h2 => hsame o h1 (by omega)
  have hrot : buf.rot b = buf'.rot b := Buffer.rot_congr fun o h1 h2 => hsame o (by omega) (by omega)
  have hunit (c : ChanIx) : buf.channelUnit b c = buf'.channelUnit b c := by
    have hdist : buf.dist b c = buf'.dist b c := Buffer.dist_congr fun o h1 h2 => hsame o (by omega) (by omega)
    have hrefl : buf.refl b c = buf'.refl b c := Buffer.refl_congr (hsame _ (by omega) (by omega))
    rw [Buffer.channelUnit, Buffer.channelUnit, hdist, hrefl]
  exact ⟨congrArg Machine.bankOfFlag hflag, hrot, congrArg Vector.ofFn (funext hunit)⟩

end Sys2Proof
end

section
/-! What each operation can do to the state, said once, and the invariant of spec/10_state.md R31 with what the sink may receive
(spec/42_return_mode.md R162, spec/44_point_assembler.md R210, R213, R218, R231). -/

namespace Sys2Proof.Machine

/-! ### What an operation can do -/

/-- Every way in which operation `i`, performed on `s`, completes. -/
inductive Effect (i : Instr) (s : State) : State → Prop where
  /-- Only the answer is written. -/
  | answers (a : Answer) : Effect i s (s.returns a)
  /-- An error may be recorded in the STATUS of the transaction in progress (R278). -/
  | raises (e : Option Error) (a : Answer) : Effect i s ((s.raise e).returns a)
  /-- `PT.EMIT` (R218). -/
  | emits (t : Txn) (b : BlockIx) (c : ChanIx) (a : Answer) (ht : s.txn = some t) :
      Effect i s ((s.emit (emitAt s.cfg t.buf t.azCur b c)).returns a)
  /-- `ROT.STEP` (R182). -/
  | stepsTracker (r : U16) (a : Answer) (hi : i = .rotStep r) : Effect i s ((s.stepTracker r).returns a)
  /-- A failing `PKT.CHECKLEN` closes the transaction in progress (R271). -/
  | rejects (len : Nat) (a : Answer) (hi : i = .pktChecklen len) (hlen : len ≠ pktLen) :
      Effect i s ((s.deliver ⟨malformedStatus len, []⟩).returns a)
  /-- `PKT.DECODE` (R230). -/
  | decodes (buf : Buffer) (a : Answer) (hi : i = .pktDecode buf) (ht : s.txn = none) :
      Effect i s (({ s with rot := (transact s.cfg s.rot buf).1 }.deliver (transact s.cfg s.rot buf).2).returns a)
  /-- `SESSION.RESET` (R250). -/
  | resets (a : Answer) (hi : i = .sessionReset) (ht : s.txn = none) :
      Effect i s ({ s with rot := Rot.reset }.returns a)
  /-- `CFG.LOAD` (R251). -/
  | loads (cfg : Cfg) (a : Answer) (hi : i = .cfgLoad cfg) (ht : s.txn = none) :
      Effect i s ({ s with cfg := cfg }.returns a)

section
variable {i : Instr} {s u : State}

/-- An operation that, where a packet is there, only answers. -/
theorem effect_of_withPacket {a : Txn → Answer} (h : s.withPacket (fun t => .next (s.returns (a t))) = .next u) :
    Effect i s u := by
  obtain ⟨t, -, -, hk⟩ := State.withPacket_next h
  cases hk
  exact .answers _

/-- An operation that, where a valid block is there, only answers. -/
theorem effect_of_withBlock {b : BlockIx} {a : Txn → Bank → Answer}
    (h : s.withBlock b (fun t k => .next (s.returns (a t k))) = .next u) : Effect i s u := by
  obtain ⟨t, k, -, -, -, hk⟩ := State.withBlock_next h
  cases hk
  exact .answers _

/-- An operation that, where a packet is there, records an error of the packet, if there is one, and answers. -/
theorem effect_of_withPacket_raise {e : Txn → Option Error} {a : Txn → Answer}
    (h : s.withPacket (fun t => .next ((s.raise (e t)).returns (a t))) = .next u) : Effect i s u := by
  obtain ⟨t, -, -, hk⟩ := State.withPacket_next h
  cases hk
  exact .raises _ _

theorem effect_of_pktChecklen {len : Nat} (h : exec (.pktChecklen len) s = .next u) : Effect (.pktChecklen len) s u := by
  simp only [exec, execPktChecklen] at h
  split at h
  case isTrue => cases h; exact .answers _
  case isFalse hlen =>
    split at h
    · cases h; exact .answers _
    · cases h; exact .rejects len _ rfl hlen

/-- The inversion of `exec`: whatever completes had one of these effects. -/
theorem exec_effect (h : exec i s = .next u) : Effect i s u := by
  cases i with
  | pktDecode buf =>
    obtain ⟨ht, hk⟩ := State.betweenTransactions_next h
    cases hk
    exact .decodes buf _ rfl ht
  | sessionReset =>
    obtain ⟨ht, hk⟩ := State.betweenTransactions_next h
    cases hk
    exact .resets _ rfl ht
  | cfgLoad cfg =>
    obtain ⟨ht, hk⟩ := State.betweenTransactions_next h
    cases hk
    exact .loads cfg _ rfl ht
  | statusRead =>
    obtain ⟨-, hk⟩ := State.betweenTransactions_next h
    cases hk
    exact .answers _
  | pktChecklen len => exact effect_of_pktChecklen h
  | rotReduce raw => cases h; exact .answers _
  | rotStep r => cases h; exact .stepsTracker r _ rfl
  | ptEmit b c =>
    obtain ⟨t, ht, -, hk⟩ := State.withPacket_next h
    cases hk
    exact .emits t b c _ ht
  | blkDecode | blkBank | rmResolve => exact effect_of_withPacket_raise h
  | blkChannels | rmTag | ptAz | ptTime | ptLaser => exact effect_of_withBlock h
  | pktFlag | pktRot | pktDist | pktRefl | pktTs | pktRmcode | pktFactory | rmPair | ptDist => exact effect_of_withPacket h

/-! ### Who writes what -/

theorem State.raise_txn_buf {t t' : Txn} {e : Option Error} (ht : s.txn = some t) (ht' : (s.raise e).txn = some t') :
    t'.buf = t.buf := by
  obtain ⟨st, hst⟩ := State.raise_txn_eq ht e
  rw [hst] at ht'
  cases ht'
  rfl

/-- R59: an operation in a transaction keeps the buffer, or ends the transaction. -/
theorem Effect.buf_eq {t t' : Txn} (h : Effect i s u) (ht : s.txn = some t) (ht' : u.txn = some t') : t'.buf = t.buf := by
  cases h with
  | answers => cases ht.symm.trans ht'; rfl
  | raises e => exact State.raise_txn_buf ht ht'
  | emits | stepsTracker =>
    simp only [State.returns_txn, State.emit_txn, State.stepTracker_txn, ht, Option.map_some, Option.some.injEq] at ht'
    rw [← ht']
  | rejects | decodes => cases ht'
  | resets _ _ hnone | loads _ _ _ hnone => cases hnone.symm.trans ht

theorem Effect.cfg_eq (h : Effect i s u) : u.cfg = s.cfg ∨ (∃ cfg, i = .cfgLoad cfg) ∧ s.txn = none := by
  cases h with
  | loads cfg _ hi ht => exact .inr ⟨⟨cfg, hi⟩, ht⟩
  | raises e => exact .inl (State.raise_cfg s e)
  | answers | emits | stepsTracker | rejects | decodes | resets => exact .inl rfl

/-- R53: the sink is only appended to, one delivery at a time. -/
theorem Effect.sink_eq (h : Effect i s u) :
    u.sink = s.sink ∨
      ((∃ buf, i = .pktDecode buf) ∨ ∃ len, len ≠ 1206 ∧ i = .pktChecklen len) ∧ ∃ d, u.sink = s.sink ++ [d] := by
  cases h with
  | decodes buf _ hi => exact .inr ⟨.inl ⟨buf, hi⟩, _, rfl⟩
  | rejects len _ hi hlen => exact .inr ⟨.inr ⟨len, hlen, hi⟩, _, rfl⟩
  | raises e => exact .inl (State.raise_sink s e)
  | answers | emits | stepsTracker | loads | resets => exact .inl rfl

theorem Effect.drawn_eq (h : Effect i s u) : u.drawn = s.drawn ∨ ∃ r : U16, 36000 ≤ r.toNat ∧ i = .rotStep r := by
  cases h with
  | stepsTracker r _ hi =>
    by_cases hr : r.toNat < rotMod
    · exact .inl (if_pos hr)
    · exact .inr ⟨r, Nat.le_of_not_lt hr, hi⟩
  | raises e => exact .inl (State.raise_drawn s e)
  | answers | emits | rejects | decodes | loads | resets => exact .inl rfl

theorem Effect.pending_eq (h : Effect i s u) : u.pending = s.pending := by
  cases h with
  | raises e => exact State.raise_pending s e
  | answers | emits | stepsTracker | rejects | decodes | loads | resets => rfl

theorem exec_rot_ne (h : exec i s = .next u) (hne : u.rot ≠ s.rot) :
    (∃ buf, i = .pktDecode buf) ∨ (∃ r, i = .rotStep r) ∨ i = .sessionReset := by
  rcases exec_rot h with hsame | ⟨buf, hi, -⟩ | ⟨r, hi, -⟩ | ⟨hi, -⟩
  · exact absurd hsame hne
  · exact .inl ⟨buf, hi⟩
  · exact .inr (.inl ⟨r, hi⟩)
  · exact .inr (.inr hi)

end

/-- Settles O16: the configuration is written by `CFG.LOAD` alone, and that only between transactions. -/
theorem bufferAndConfigurationAreReadOnly : Obligations.BufferAndConfigurationAreReadOnly := by
  intro i s u h
  have heffect := exec_effect h
  rcases heffect.cfg_eq with hcfg | ⟨⟨cfg, rfl⟩, hnone⟩
  · exact ⟨fun t ht => ⟨hcfg, fun t' ht' => heffect.buf_eq ht ht'⟩, fun _ _ => hcfg⟩
  · exact ⟨fun t ht => absurd (hnone.symm.trans ht) nofun, nofun⟩

/-- Settles O55: `ROT.STEP` holds a rotation, and `exec_keeps_valid` excludes every operation but the reset. -/
theorem validIsClearedOnlyByReset : Obligations.ValidIsClearedOnlyByReset := by
  refine ⟨rfl, fun i s u h => ⟨?_, fun hvalid hcleared => ?_⟩⟩
  · rintro r rfl
    cases h
    exact trackStep_valid s r
  · by_contra hi
    rw [exec_keeps_valid h hvalid hi] at hcleared
    cases hcleared

/-- Settles O56: field by field, from the effects. -/
theorem whoWritesWhat : Obligations.WhoWritesWhat := by
  intro i s u h
  have heffect := exec_effect h
  refine ⟨exec_rot_ne h, fun hne => ?_, heffect.sink_eq.resolve_left, heffect.drawn_eq.resolve_left, heffect.pending_eq⟩
  exact (heffect.cfg_eq.resolve_left hne).1

/-! ### Good records and deliveries -/

/-- R162: the tag rule gives no tag that the coarse mode does not admit. -/
theorem tagAllowed_tagOf (coarse : Coarse) (role : Role) (d dp : U16) :
    tagAllowed coarse (tagOf coarse role d dp) = true := by
  cases coarse with
  | strongest | last | unknown => rfl
  | dual =>
    cases role with
    | only => rfl
    | first => simp only [tagOf]; split <;> rfl
    | last => simp only [tagOf]; split <;> rfl

theorem tagAllowed_tag (buf : Buffer) (b : BlockIx) (c : ChanIx) : tagAllowed buf.coarse (buf.tag b c) = true :=
  tagAllowed_tagOf _ _ _ _

theorem Point.wf_iff (p : Point) : p.wf = true ↔ p.distRaw ≠ 0 ∧ p.azCdeg.toNat < rotMod := by
  simp only [Point.wf, Bool.and_eq_true, decide_eq_true_eq]

theorem Delivery.wf_iff (d : Delivery) :
    d.wf = true ↔
      d.status.nPoints = d.points.length ∧ d.points.length ≤ 384 ∧ (d.status.malformed = true → d.points = []) ∧
        ∀ p ∈ d.points, p.wf = true ∧ p.timestamp = timestampOf d.status.baseTs p.tOffset ∧
          tagAllowed d.status.coarse p.tag = true := by
  simp only [Delivery.wf, Bool.and_eq_true, beq_iff_eq, decide_eq_true_eq, List.all_eq_true, and_assoc, Bool.or_eq_true,
    Bool.not_eq_true', List.isEmpty_iff, ← Bool.not_eq_true, ← imp_iff_not_or]

theorem Txn.wf_iff (t : Txn) :
    t.wf = true ↔ t.buf.wf = true ∧ t.azCur.toNat < rotMod ∧ ∀ p ∈ t.out, p.wf = true := by
  simp only [Txn.wf, Bool.and_eq_true, decide_eq_true_eq, List.all_eq_true, and_assoc]

theorem State.inv_iff (s : State) :
    s.Inv = true ↔ s.rot.wf = true ∧ (∀ t, s.txn = some t → t.wf = true) ∧ ∀ d ∈ s.sink, d.wf = true := by
  simp only [State.Inv, Bool.and_eq_true, List.all_eq_true, Option.all_eq_true, and_assoc]

theorem emitAt_wf {cfg : Cfg} {buf : Buffer} {az : U16} {b : BlockIx} {c : ChanIx} {p : Point}
    (h : emitAt cfg buf az b c = some p) : p.wf = true := by
  obtain ⟨k, -, hdist, rfl⟩ := emitAt_eq_some.1 h
  exact (Point.wf_iff _).2 ⟨hdist, correctedAzimuth_lt _ _⟩

theorem walk_points_wf {cfg : Cfg} {buf : Buffer} {bs : List BlockIx} {rot : Rot} {p : Point}
    (hp : p ∈ (walk cfg buf bs rot).2) :
    p.wf = true ∧ p.timestamp = timestampOf buf.ts p.tOffset ∧ tagAllowed buf.coarse p.tag = true := by
  obtain ⟨b, -, az, c, hemit⟩ := walk_mem hp
  refine ⟨emitAt_wf hemit, ?_⟩
  obtain ⟨k, -, -, rfl⟩ := emitAt_eq_some.1 hemit
  exact ⟨rfl, tagAllowed_tag buf b c⟩

/-- R231: 12 blocks of 32 channels. -/
theorem walk_packet_length_le (cfg : Cfg) (buf : Buffer) (rot : Rot) :
    (walk cfg buf (List.finRange 12) rot).2.length ≤ 384 := by
  simpa using walk_length_le cfg buf (List.finRange 12) rot

theorem malformed_wf (len : Nat) : Delivery.wf ⟨malformedStatus len, []⟩ = true := rfl

theorem transact_delivery_wf (cfg : Cfg) (rot : Rot) (buf : Buffer) : (transact cfg rot buf).2.wf = true := by
  by_cases hlen : buf.len = pktLen
  · rw [transact_packet hlen, Delivery.wf_iff]
    refine ⟨rfl, walk_packet_length_le cfg buf rot, fun hmalformed => ?_, fun p hp => ?_⟩
    · exact absurd ((headerStatus_len buf).2.symm.trans hmalformed) nofun
    · simp only [headerStatus_baseTs, headerStatus_coarse]
      exact walk_points_wf hp
  · rw [transact_malformed hlen]
    exact malformed_wf _

theorem transact_rot_wf {cfg : Cfg} {rot : Rot} {buf : Buffer} (h : rot.wf = true) : (transact cfg rot buf).1.wf = true := by
  by_cases hlen : buf.len = pktLen
  · rw [transact_packet hlen]; exact walk_rot_wf h
  · rw [transact_malformed hlen]; exact h

/-! ### The invariant -/

section
variable {i : Instr} {s u : State}

theorem exec_rot_wf (h : exec i s = .next u) (hrot : s.rot.wf = true) : u.rot.wf = true := by
  rcases exec_rot h with heq | ⟨_, -, heq⟩ | ⟨r, -, heq⟩ | ⟨-, heq⟩ <;> rw [heq]
  · exact hrot
  · exact transact_rot_wf hrot
  · exact (trackStep_wf hrot).1
  · rfl

/-- A transaction still in progress has its old buffer, and its azimuth and its new record are reduced. -/
theorem Effect.txn_wf (h : Effect i s u) (hrot : s.rot.wf = true) (htxn : ∀ t, s.txn = some t → t.wf = true) :
    ∀ t, u.txn = some t → t.wf = true := by
  intro t' ht'
  cases h with
  | answers | resets | loads => exact htxn t' ht'
  | rejects | decodes => cases ht'
  | raises e =>
    cases e with
    | none => exact htxn t' ht'
    | some e =>
      obtain ⟨t, ht, rfl⟩ := Option.map_eq_some_iff.1 ht'
      exact htxn t ht
  | stepsTracker r =>
    obtain ⟨t, ht, rfl⟩ := Option.map_eq_some_iff.1 ht'
    obtain ⟨hbuf, -, hout⟩ := (Txn.wf_iff t).1 (htxn t ht)
    exact (Txn.wf_iff _).2 ⟨hbuf, (trackStep_wf hrot).2, hout⟩
  | emits t₀ b c =>
    obtain ⟨t, ht, rfl⟩ := Option.map_eq_some_iff.1 ht'
    obtain ⟨hbuf, haz, hout⟩ := (Txn.wf_iff t).1 (htxn t ht)
    refine (Txn.wf_iff _).2 ⟨hbuf, haz, fun p hp => ?_⟩
    rcases List.mem_append.1 hp with hp | hp
    · exact hout p hp
    · exact emitAt_wf (Option.mem_toList.1 hp)

theorem Effect.sink_wf (h : Effect i s u) (hsink : ∀ d ∈ s.sink, d.wf = true) : ∀ d ∈ u.sink, d.wf = true := by
  cases h with
  | answers | resets | loads | stepsTracker | emits => exact hsink
  | raises e => rw [State.returns_sink, State.raise_sink]; exact hsink
  | rejects len =>
    exact List.forall_mem_append.2 ⟨hsink, List.forall_mem_singleton.2 (malformed_wf len)⟩
  | decodes buf =>
    exact List.forall_mem_append.2 ⟨hsink, List.forall_mem_singleton.2 (transact_delivery_wf s.cfg s.rot buf)⟩

theorem exec_keeps_inv (h : exec i s = .next u) (hinv : s.Inv = true) : u.Inv = true := by
  obtain ⟨hrot, htxn, hsink⟩ := (State.inv_iff s).1 hinv
  have heffect := exec_effect h
  exact (State.inv_iff u).2 ⟨exec_rot_wf h hrot, heffect.txn_wf hrot htxn, heffect.sink_wf hsink⟩

/-- Taking the next operation off its queue keeps the invariant. -/
theorem fetch_keeps_inv (h : s.fetch = some (i, u)) (hinv : s.Inv = true) : u.Inv = true := by
  rcases fetch_cases h with ⟨t, rest, ht, -, rfl⟩ | ⟨q, rest, -, -, rfl⟩
  · obtain ⟨hrot, htxn, hsink⟩ := (State.inv_iff s).1 hinv
    refine (State.inv_iff _).2 ⟨hrot, fun t' ht' => ?_, hsink⟩
    cases ht'
    exact htxn t ht
  · exact hinv

theorem step_of_fetch_none (h : s.fetch = none) : step s = .next s := by
  rw [step, h]

theorem step_of_fetch_some (h : s.fetch = some (i, u)) : step s = exec i u := by
  rw [step, h]

end

/-- Settles O58: nothing is held, in progress or delivered after reset. -/
theorem resetStateIsGood : Obligations.ResetStateIsGood := rfl

/-- Settles O59: the next operation is taken off its queue and performed, and both keep the invariant. -/
theorem everyStepKeepsTheInvariant : Obligations.EveryStepKeepsTheInvariant := by
  intro s u hinv hstep
  cases hfetch : s.fetch with
  | none =>
    rw [step_of_fetch_none hfetch] at hstep
    cases hstep
    exact hinv
  | some next =>
    obtain ⟨i, t⟩ := next
    rw [step_of_fetch_some hfetch] at hstep
    exact exec_keeps_inv hstep (fetch_keeps_inv hfetch hinv)

/-- Settles O57: the delivery is the transaction's, and it is a good one. -/
theorem tagsFitTheCoarseMode : Obligations.TagsFitTheCoarseMode := by
  intro s u buf h
  obtain ⟨htxn, -⟩ := State.betweenTransactions_next h
  rw [exec_pktDecode s buf htxn] at h
  cases h
  obtain ⟨-, -, -, hpoints⟩ := (Delivery.wf_iff _).1 (transact_delivery_wf s.cfg s.rot buf)
  exact ⟨_, rfl, fun p hp => (hpoints p hp).2.2⟩

end Sys2Proof.Machine
end

section
/-! The step (spec/20_memory.md R60, spec/70_reset_and_hazards.md R306, R310) and the four operations that the outside requests
(spec/45_session_and_config.md R250 to R252). -/

namespace Sys2Proof.Machine

/-! ### The external operations -/

section
variable {s : State} (ht : s.txn = none)
include ht

theorem exec_sessionReset : exec .sessionReset s = .next { s with rot := Rot.reset, answer := .nothing } :=
  State.betweenTransactions_of ht

theorem exec_cfgLoad (cfg : Cfg) : exec (.cfgLoad cfg) s = .next { s with cfg := cfg, answer := .nothing } :=
  State.betweenTransactions_of ht

theorem exec_statusRead :
    exec .statusRead s = .next { s with answer := .rotation s.rot.valid s.rot.last s.rot.rev } :=
  State.betweenTransactions_of ht

/-- R279, R282: between transactions a request is carried out, and no transaction is left. -/
theorem exec_decode (q : Request) :
    ∃ u, exec (decode q) s = .next u ∧ u.txn = none ∧ u.pending = s.pending := by
  cases q with
  | present bytes => exact ⟨_, exec_pktDecode s _ ht, ht, rfl⟩
  | sessionReset => exact ⟨_, exec_sessionReset ht, ht, rfl⟩
  | cfgLoad cfg => exact ⟨_, exec_cfgLoad ht cfg, ht, rfl⟩
  | statusRead => exact ⟨_, exec_statusRead ht, ht, rfl⟩

end

/-- R310: an overlapping request is refused. -/
theorem State.betweenTransactions_refused {s : State} {t : Txn} (ht : s.txn = some t) (k : Result) :
    s.betweenTransactions k = .refused .transactionInProgress := by
  rw [State.betweenTransactions, ht]

theorem Rot.valid_iff (r : Rot) : r.valid = true ↔ r.last ≠ none := Option.isSome_iff_ne_none

/-- Settles O54: all four go through the same guard. -/
theorem overlapIsRefused : Obligations.OverlapIsRefused := by
  intro s i hne hext
  obtain ⟨t, ht⟩ := Option.ne_none_iff_exists'.1 hne
  rcases (external_iff i).1 hext with ⟨buf, rfl⟩ | rfl | ⟨cfg, rfl⟩ | rfl <;>
    exact State.betweenTransactions_refused ht _

/-- Settles O50: the second reset writes what the first one left. -/
theorem sessionResetEffect : Obligations.SessionResetEffect := by
  intro s ht
  refine ⟨exec_sessionReset ht, fun u hu => ?_⟩
  rw [exec_sessionReset ht] at hu
  cases hu
  exact exec_sessionReset (s := { s with rot := Rot.reset, answer := .nothing }) ht

/-- Settles O51: a reset that completes does so between transactions. -/
theorem powerOnIsSessionReset : Obligations.PowerOnIsSessionReset := by
  refine ⟨rfl, rfl, rfl, rfl, fun s u h => ?_⟩
  obtain ⟨ht, -⟩ := State.betweenTransactions_next h
  rw [exec_sessionReset ht] at h
  cases h
  exact ⟨rfl, rfl⟩

/-- Settles O52: the configuration loaded is the one the next transaction takes. -/
theorem configurationLoad : Obligations.ConfigurationLoad := fun s cfg buf ht =>
  ⟨exec_cfgLoad ht cfg, exec_pktDecode { s with cfg := cfg, answer := .nothing } buf ht⟩

/-- Settles O53: the answer is the triple, and `ROT.valid` is whether a rotation is held. -/
theorem statusRead : Obligations.StatusRead := fun s ht => ⟨exec_statusRead ht, Rot.valid_iff s.rot⟩

/-! ### The step -/

section
variable {s : State}

theorem fetch_of_todo {t : Txn} {i : Instr} {rest : List Instr} (ht : s.txn = some t) (htodo : t.todo = i :: rest) :
    s.fetch = some (i, { s with txn := some { t with todo := rest } }) := by
  simp only [State.fetch, ht, htodo]

theorem fetch_of_no_todo (h : ∀ t, s.txn = some t → t.todo = []) : s.fetch = s.nextRequest := by
  unfold State.fetch
  split
  case h_1 => rfl
  case h_2 t ht => rw [h t ht]

theorem nextRequest_of_nil (h : s.pending = []) : s.nextRequest = none := by
  rw [State.nextRequest, h]

theorem nextRequest_of_cons {q : Request} {rest : List Request} (h : s.pending = q :: rest) :
    s.nextRequest = some (decode q, { s with pending := rest }) := by
  rw [State.nextRequest, h]

/-- R293: with nothing to run the state is held. -/
theorem step_of_idle (htodo : ∀ t, s.txn = some t → t.todo = []) (h : s.pending = []) : step s = .next s :=
  step_of_fetch_none ((fetch_of_no_todo htodo).trans (nextRequest_of_nil h))

theorem step_of_request (htodo : ∀ t, s.txn = some t → t.todo = []) {q : Request} {rest : List Request}
    (h : s.pending = q :: rest) : step s = exec (decode q) { s with pending := rest } :=
  step_of_fetch_some ((fetch_of_no_todo htodo).trans (nextRequest_of_cons h))

end

/-- Settles O7: the three ways in which the next operation is found. -/
theorem stepRunsTheDecodedRequest : Obligations.StepRunsTheDecodedRequest := fun _ =>
  ⟨fun _ _ _ ht htodo => step_of_fetch_some (fetch_of_todo ht htodo),
    fun htodo => ⟨step_of_idle htodo, fun _ _ => step_of_request htodo⟩⟩

/-- Settles O60: what the outside can request completes between transactions and leaves the rest of the queue alone. -/
theorem outsideRequestsNeverStop : Obligations.OutsideRequestsNeverStop := by
  intro s hready
  have ht : s.txn = none := Option.isNone_iff_eq_none.1 hready
  have htodo : ∀ t, s.txn = some t → t.todo = [] := fun t h => absurd (ht.symm.trans h) nofun
  cases hpending : s.pending with
  | nil => exact ⟨s, step_of_idle htodo hpending, hready, hpending⟩
  | cons q rest =>
    obtain ⟨u, hexec, hu, hrest⟩ := exec_decode (s := { s with pending := rest }) ht q
    exact ⟨u, (step_of_request htodo hpending).trans hexec, Option.isNone_iff_eq_none.2 hu, hrest⟩

end Sys2Proof.Machine
end

section
/-! The operations that read the packet in progress (spec/40_packet_layout.md R110 to R118, spec/41_block_decoder.md R130 to R135)
and the errors they record (spec/60_exceptions.md R270 to R273). -/

namespace Sys2Proof.Machine

/-! ### Accessors -/

section
variable {s : State} {t : Txn} (ht : s.txn = some t) (hlen : t.buf.len = pktLen)
include ht hlen

theorem exec_pktFlag (b : BlockIx) : exec (.pktFlag b) s = .next { s with answer := .half (t.buf.flag b) } :=
  State.withPacket_of ht hlen

theorem exec_pktDist (b : BlockIx) (c : ChanIx) :
    exec (.pktDist b c) s = .next { s with answer := .half (t.buf.dist b c) } :=
  State.withPacket_of ht hlen

theorem exec_pktTs : exec .pktTs s = .next { s with answer := .word t.buf.ts } :=
  State.withPacket_of ht hlen

theorem exec_pktFactory : exec .pktFactory s = .next { s with answer := .byte t.buf.factory } :=
  State.withPacket_of ht hlen

end

/-- Settles O8: the answer is the flag field, whose two bytes stand at the flag's offset. -/
theorem flagAccessorReads : Obligations.FlagAccessorReads := by
  intro s t b ht hlen
  refine ⟨t.buf.flag b, exec_pktFlag ht hlen b, ?_⟩
  rw [Buffer.flag_toNat, memRead_two, offFlag_eq]

/-- Settles O10: the answer is the distance field, whose two bytes stand at the distance's offset. -/
theorem distAccessorReads : Obligations.DistAccessorReads := by
  intro s t b c ht hlen
  have hnext : 100 * b.val + 4 + 3 * c.val + 1 = 100 * b.val + 5 + 3 * c.val := by omega
  refine ⟨t.buf.dist b c, exec_pktDist ht hlen b c, ?_⟩
  rw [Buffer.dist_toNat, memRead_two, offDist_eq, hnext]

/-- Settles O13: the answers are the timestamp and factory fields, four bytes at 1200 and one at 1205. -/
theorem timestampAndFactoryRead : Obligations.TimestampAndFactoryRead := by
  intro s t ht hlen
  refine ⟨⟨t.buf.ts, exec_pktTs ht hlen, ?_⟩, ?_⟩
  · rw [Buffer.ts_toNat, memRead_four]
  · rw [exec_pktFactory ht hlen, Buffer.factory_eq, offFactory]

theorem exec_pktChecklen_pass {len : Nat} (h : len = pktLen) (s : State) :
    exec (.pktChecklen len) s = .next { s with answer := .lengthOk true } :=
  if_pos h

/-- Settles O14: the outcome turns on the length and on whether there is a transaction to end. -/
theorem lengthCheckOutcome : Obligations.LengthCheckOutcome := by
  intro s len
  refine ⟨fun hlen => exec_pktChecklen_pass hlen s, fun hlen hnone => ?_, fun hlen t ht => ?_⟩
  · rw [exec, execPktChecklen, if_neg hlen]
    split
    case h_1 => rfl
    case h_2 t ht => cases hnone.symm.trans ht
  · rw [exec, execPktChecklen, if_neg hlen, ht]
    rfl

/-! ### Stops -/

section
variable {s : State} (h : ∀ t, s.txn = some t → t.buf.len ≠ pktLen)
include h

/-- R118: nothing is read without a packet. -/
theorem State.withPacket_noPacket (k : Txn → Result) : s.withPacket k = .fault .noPacket := by
  unfold State.withPacket
  split
  case h_1 => rfl
  case h_2 t ht => exact if_neg (h t ht)

theorem State.withBlock_noPacket (b : BlockIx) (k : Txn → Bank → Result) : s.withBlock b k = .fault .noPacket :=
  State.withPacket_noPacket h _

end

/-- R130: an invalid block is not used. -/
theorem State.withBlock_invalid {s : State} {t : Txn} {b : BlockIx} (ht : s.txn = some t) (hlen : t.buf.len = pktLen)
    (hbank : t.buf.bank b = none) (k : Txn → Bank → Result) : s.withBlock b k = .fault .invalidBlock := by
  rw [State.withBlock, State.withPacket_of ht hlen, hbank]

/-- Settles O15: every one of the operations goes through the packet guard, or through the block guard that contains it. -/
theorem noPacketNoAccess : Obligations.NoPacketNoAccess := by
  intro s b c h
  have hpacket := State.withPacket_noPacket h
  have hblock := State.withBlock_noPacket h b
  simp only [List.forall_mem_cons]
  exact ⟨hpacket _, hpacket _, hpacket _, hpacket _, hpacket _, hpacket _, hpacket _, hpacket _, hpacket _, hblock _,
    hpacket _, hpacket _, hblock _, hpacket _, hblock _, hblock _, hblock _, hpacket _, nofun⟩

/-- Settles O22: every one of the operations goes through the block guard. -/
theorem invalidBlockStops : Obligations.InvalidBlockStops := by
  intro s t b c ht hlen hbank
  have hblock := State.withBlock_invalid ht hlen hbank
  simp only [List.forall_mem_cons]
  exact ⟨hblock _, hblock _, hblock _, hblock _, hblock _, nofun⟩

/-! ### Recording errors -/

theorem record_badBank (st : Status) (b i : BlockIx) (f : U16) :
    (st.record (.unknownBankFlag b f)).badBank.getLsbD i.val = (st.badBank.getLsbD i.val || i == b) := by
  have hbit : (decide (b.val < 12) && decide (b.val = i.val)) = (i == b) := by
    rw [decide_eq_true b.isLt, Bool.true_and, Bool.eq_iff_iff, decide_eq_true_iff, beq_iff_eq, Fin.ext_iff, eq_comm]
  rw [Status.record, BitVec.getLsbD_or, BitVec.getLsbD_twoPow, hbit]

theorem record_badFlag (st : Status) (b i : BlockIx) (f : U16) :
    (st.record (.unknownBankFlag b f)).badFlag[i] = if i = b then f else st.badFlag[i] := by
  simp only [Status.record, Fin.getElem_fin, Vector.getElem_set, Fin.ext_iff, eq_comm]

/-- Settles O17: two of the errors are their record updates; the third sets one bit and one entry. -/
theorem recordingErrors : Obligations.RecordingErrors := fun st =>
  ⟨fun _ => rfl, fun _ => rfl, fun b f => ⟨fun i => record_badBank st b i f, fun i => record_badFlag st b i f, rfl⟩⟩

/-! ### Blocks -/

theorem bankError_valid {buf : Buffer} {b : BlockIx} {k : Bank} (h : buf.bank b = some k) : bankError buf b = none := by
  rw [bankError, h]

theorem bankError_invalid {buf : Buffer} {b : BlockIx} (h : buf.bank b = none) :
    bankError buf b = some (.unknownBankFlag b (buf.flag b)) := by
  rw [bankError, h]

/-- R131: the lower sentinel names the lower bank. -/
theorem bank_of_flagLower {buf : Buffer} {b : BlockIx} (h : buf.flag b = flagLower) : buf.bank b = some .lower := by
  rw [Buffer.bank, h]
  rfl

/-- R131: a flag that is neither sentinel names no bank. -/
theorem bank_of_flag_ne {buf : Buffer} {b : BlockIx} (hupper : buf.flag b ≠ flagUpper) (hlower : buf.flag b ≠ flagLower) :
    buf.bank b = none := by
  rw [Buffer.bank, bankOfFlag, if_neg hupper, if_neg hlower]

theorem units_get (buf : Buffer) (b : BlockIx) (c : ChanIx) : (buf.units b)[c] = ⟨buf.dist b c, buf.refl b c⟩ :=
  Vector.getElem_ofFn c.isLt

section
variable {s : State} {t : Txn} {b : BlockIx} (ht : s.txn = some t) (hlen : t.buf.len = pktLen)
include ht hlen

theorem exec_blkBank : exec (.blkBank b) s = .next ((s.raise (bankError t.buf b)).returns (.bank (t.buf.bank b))) :=
  State.withPacket_of ht hlen

theorem exec_blkBank_valid {k : Bank} (hbank : t.buf.bank b = some k) :
    exec (.blkBank b) s = .next { s with answer := .bank (some k) } := by
  rw [exec_blkBank ht hlen, bankError_valid hbank, State.raise_none, hbank, State.returns]

theorem exec_blkBank_invalid (hbank : t.buf.bank b = none) :
    exec (.blkBank b) s =
      .next { s with
        txn := some { t with st := t.st.record (.unknownBankFlag b (t.buf.flag b)) }
        answer := .bank none } := by
  rw [exec_blkBank ht hlen, bankError_invalid hbank, State.raise_some_of ht, hbank, State.returns]

theorem exec_blkDecode :
    exec (.blkDecode b) s =
      .next ((s.raise (bankError t.buf b)).returns
        (.block ((t.buf.bank b).map fun k => ⟨k, t.buf.rot b, t.buf.units b⟩))) :=
  State.withPacket_of ht hlen

theorem exec_blkDecode_valid {k : Bank} (hbank : t.buf.bank b = some k) :
    exec (.blkDecode b) s = .next { s with answer := .block (some ⟨k, t.buf.rot b, t.buf.units b⟩) } := by
  rw [exec_blkDecode ht hlen, bankError_valid hbank, State.raise_none, hbank, State.returns, Option.map_some]

theorem exec_blkDecode_invalid (hbank : t.buf.bank b = none) :
    exec (.blkDecode b) s =
      .next { s with
        txn := some { t with st := t.st.record (.unknownBankFlag b (t.buf.flag b)) }
        answer := .block none } := by
  rw [exec_blkDecode ht hlen, bankError_invalid hbank, State.raise_some_of ht, hbank, State.returns, Option.map_none]

theorem exec_blkChannels {k : Bank} (hbank : t.buf.bank b = some k) :
    exec (.blkChannels b) s = .next { s with answer := .units (t.buf.units b) } :=
  State.withBlock_of ht hlen hbank

end

/-- Settles O18: the flag decides the bank, and the bank decides whether an error is recorded. -/
theorem bankResolution : Obligations.BankResolution := fun _ _ _ ht hlen =>
  ⟨fun h => exec_blkBank_valid ht hlen (bank_of_flagUpper h), fun h => exec_blkBank_valid ht hlen (bank_of_flagLower h),
    fun hupper hlower => exec_blkBank_invalid ht hlen (bank_of_flag_ne hupper hlower)⟩

/-- Settles O19: the bank decides between the block's data and the error. -/
theorem blockDecoding : Obligations.BlockDecoding := fun _ t b ht hlen =>
  ⟨fun _ hbank => ⟨t.buf.units b, exec_blkDecode_valid ht hlen hbank, units_get t.buf b⟩, exec_blkDecode_invalid ht hlen⟩

/-- Settles O21: the units answered are the accessors' values, channel by channel. -/
theorem channelExtraction : Obligations.ChannelExtraction := fun _ t b _ ht hlen hbank =>
  ⟨t.buf.units b, exec_blkChannels ht hlen hbank, units_get t.buf b⟩

end Sys2Proof.Machine
end

section
/-! The Return-Mode Resolver's pairing and tags (spec/42_return_mode.md R155 to R162). -/

namespace Sys2Proof.Machine

/-! ### Pairing -/

section
variable {buf : Buffer} {b b' : BlockIx}

/-- R156: what the scan leaves at two neighbouring blocks. -/
theorem roles_spec (hnext : b'.val = b.val + 1) :
    (buf.roles[b] = .first ↔ buf.roles[b'] = .last) ∧
      (buf.roles[b] = .first → pairs (buf.pairKey b) (buf.pairKey b') = true) ∧
      (buf.roles[b] = .only → pairs (buf.pairKey b) (buf.pairKey b') = false) := by
  have hlt : b.val + 1 < ((List.finRange 12).map buf.pairKey).length := by
    rw [List.length_map, List.length_finRange]
    omega
  have hspec := scanRoles_spec ((List.finRange 12).map buf.pairKey) b.val hlt
  rw [← hnext, roles_get, roles_get, key_get, key_get] at hspec
  simpa only [Option.some.injEq, exists_and_left, exists_eq_left'] using hspec

theorem roles_zero_ne_last (buf : Buffer) : buf.roles[(0 : BlockIx)] ≠ .last := by
  intro h
  have hhead := scanRoles_head ((List.finRange 12).map buf.pairKey)
  exact hhead ((roles_get buf 0).trans (congrArg some h))

theorem roles_eleven_ne_first (buf : Buffer) : buf.roles[(11 : BlockIx)] ≠ .first := by
  intro h
  have hend := scanRoles_last ((List.finRange 12).map buf.pairKey) 11 (by simp)
  exact hend ((roles_get buf 11).trans (congrArg some h))

theorem val_add_one_of_ne {b : BlockIx} (h : b ≠ 11) : (b + 1).val = b.val + 1 :=
  Fin.val_add_one_of_lt (Fin.lt_last_iff_ne_last.2 h)

theorem val_sub_one_of_ne {b : BlockIx} (h : b ≠ 0) : b.val = (b - 1).val + 1 := by
  rw [Fin.val_sub_one_of_ne_zero h]
  have hpos : b.val ≠ 0 := fun hzero => h (Fin.ext hzero)
  omega

/-- R157: a block with a partner, and the partner, are valid. -/
theorem valid_of_partner {p : BlockIx} (h : partnerOf buf.roles[b] b = some p) : buf.valid b = true ∧ buf.valid p = true := by
  have hpair {x y : BlockIx} (hnext : y.val = x.val + 1) (hfirst : buf.roles[x] = .first) :
      buf.valid x = true ∧ buf.valid y = true := by
    obtain ⟨hbank, hsame, -⟩ := (pairs_iff buf x y).1 ((roles_spec hnext).2.1 hfirst)
    exact ⟨Option.isSome_iff_ne_none.2 hbank, Option.isSome_iff_ne_none.2 (hsame ▸ hbank)⟩
  cases hrole : buf.roles[b] with
  | only => rw [hrole] at h; cases h
  | first =>
    rw [hrole] at h
    cases h
    have hb : b ≠ 11 := by rintro rfl; exact roles_eleven_ne_first buf hrole
    exact hpair (val_add_one_of_ne hb) hrole
  | last =>
    rw [hrole] at h
    cases h
    have hb : b ≠ 0 := by rintro rfl; exact roles_zero_ne_last buf hrole
    have hnext := val_sub_one_of_ne hb
    exact (hpair hnext ((roles_spec hnext).1.2 hrole)).symm

end

/-! ### Tags -/

section
variable {s : State} {t : Txn} (ht : s.txn = some t) (hlen : t.buf.len = pktLen)
include ht hlen

theorem exec_rmPair : exec .rmPair s = .next { s with answer := .roles t.buf.roles } :=
  State.withPacket_of ht hlen

theorem exec_rmTag {b : BlockIx} {k : Bank} (hbank : t.buf.bank b = some k) (c : ChanIx) :
    exec (.rmTag b c) s = .next { s with answer := .tag (t.buf.tag b c) } :=
  State.withBlock_of ht hlen hbank

end

section
variable {buf : Buffer} (hcoarse : buf.coarse = .dual) {b : BlockIx} (c : ChanIx)
include hcoarse

/-- R159: the tag of a block of a DUAL packet goes by its role. -/
theorem tag_dual : buf.tag b c = tagOf .dual buf.roles[b] (buf.dist b c) (buf.partnerDist buf.roles[b] b c) := by
  rw [Buffer.tag, Buffer.role, hcoarse, Buffer.tagWith]

theorem tag_only (hrole : buf.roles[b] = .only) : buf.tag b c = .dualOnly := by
  rw [tag_dual hcoarse, hrole, tagOf]

theorem tag_first (hrole : buf.roles[b] = .first) :
    buf.tag b c =
      if (buf.dist (b + 1) c).toNat ≤ (buf.dist b c).toNat then .dualStrongestFirst else .dualWeakFirst := by
  rw [tag_dual hcoarse, hrole]
  rfl

theorem tag_last (hrole : buf.roles[b] = .last) :
    buf.tag b c = if (buf.dist (b - 1) c).toNat < (buf.dist b c).toNat then .dualStrongestLast else .dualWeakLast := by
  rw [tag_dual hcoarse, hrole]
  rfl

end

/-- R159: the tag of a packet that is not DUAL goes by its coarse mode alone. -/
theorem tag_of_coarse {buf : Buffer} {m : Coarse} (hcoarse : buf.coarse = m) (b : BlockIx) (c : ChanIx) :
    buf.tag b c = tagOf m (buf.role b) (buf.dist b c) (buf.partnerDist (buf.role b) b c) := by
  rw [Buffer.tag, hcoarse, Buffer.tagWith]

/-- Settles O24: the roles are the scan's, of which `roles_spec` says what it leaves at neighbouring blocks. -/
theorem pairingIsGreedy : Obligations.PairingIsGreedy := by
  intro s t ht hlen
  refine ⟨t.buf.roles, exec_rmPair ht hlen, rfl, roles_zero_ne_last t.buf, roles_eleven_ne_first t.buf, fun b b' hnext => ?_⟩
  obtain ⟨hiff, hfirst, honly⟩ := roles_spec (buf := t.buf) hnext
  rw [← Bool.not_eq_true] at honly
  rw [pairs_iff] at hfirst honly
  exact ⟨hiff, hfirst, honly⟩

/-- Settles O25: by the coarse mode and, in a DUAL packet, the role. -/
theorem tagRule : Obligations.TagRule := by
  intro s t b c k ht hlen hbank
  refine ⟨t.buf.tag b c, exec_rmTag ht hlen hbank c, ?_⟩
  cases hcoarse : t.buf.coarse with
  | strongest | last | unknown => exact tag_of_coarse hcoarse b c
  | dual =>
    cases hrole : t.buf.roles[b] with
    | only => exact tag_only hcoarse c hrole
    | first => exact tag_first hcoarse c hrole
    | last => exact tag_last hcoarse c hrole

/-- Settles O26: both tags compare the same two distances, the one with `≤` and the other with `<` the other way round. -/
theorem oneStrongestPerPair : Obligations.OneStrongestPerPair := by
  intro buf b b' c hcoarse hnext hfirst
  have hlast : buf.roles[b'] = .last := (roles_spec hnext).1.1 hfirst
  have hsucc : b + 1 = b' := Fin.ext (by rw [hnext, val_add_one_of_ne (by rintro rfl; omega)])
  have hpred : b' - 1 = b := by rw [← hsucc, add_sub_cancel_right]
  rw [tag_first hcoarse c hfirst, tag_last hcoarse c hlast, hsucc, hpred]
  exact ⟨fun h => ⟨if_pos h, if_neg (Nat.not_lt_of_le h)⟩, fun h => ⟨if_neg (Nat.not_le_of_lt h), if_pos h⟩⟩

end Sys2Proof.Machine
end

section
/-! The Rotation Tracker (spec/43_rotation_tracker.md R181 to R194): its remaining cases, the extremes of `EPS`, and sequences of
steps. -/

namespace Sys2Proof.Machine

/-! ### Single steps -/

/-- R194: the whole state after `ROT.STEP` of an operand that was not reduced. -/
theorem exec_rotStep_unreduced {s : State} {r v : U16} {rot : Rot} (hr : ¬ r.toNat < rotMod)
    (hstep : s.trackStep r = (rot, v)) :
    exec (.rotStep r) s =
      .next { s with
        rot := rot
        txn := s.txn.map fun t => { t with azCur := v }
        answer := .half v
        drawn := s.drawn + 1 } := by
  simp only [exec, execRotStep, State.stepTracker, State.returns, hstep, if_neg hr]

/-- Settles O27: reduction is the remainder, and an unreduced operand gives the free value. -/
theorem rotationReduction : Obligations.RotationReduction := by
  refine ⟨fun s raw => ⟨reduceRotation raw, rfl, reduceRotation_toNat raw⟩, fun s r hwf hr => ?_⟩
  have hge : ¬ r.toNat < rotMod := Nat.not_lt_of_le hr
  obtain ⟨v, hv, hstep⟩ := trackStep_of_ge hwf hge
  exact ⟨v, hv, exec_rotStep_unreduced hge hstep⟩

section
variable {eps r v : U16} {rot : Rot} (hlast : rot.last = some v) (hlt : r.toNat < v.toNat)
include hlast hlt

/-- R186: an operand below the rotation held by more than `EPS` is taken, and a revolution counted. -/
theorem track_wrap (heps : eps.toNat < v.toNat - r.toNat) : track eps rot r = (⟨some r, rot.rev + 1⟩, r) := by
  have hle : ¬ v ≤ r := Nat.not_le_of_lt hlt
  have hfar : eps < v - r := BitVec.lt_def.2 (by rwa [sub_toNat_of_lt hlt])
  simp only [track, trackCase, hlast, if_neg hle, if_pos hfar]

/-- R187: an operand below the rotation held by at most `EPS` is not taken. -/
theorem track_hold (heps : v.toNat - r.toNat ≤ eps.toNat) : track eps rot r = (rot, v) := by
  have hle : ¬ v ≤ r := Nat.not_le_of_lt hlt
  have hnear : ¬ eps < v - r := by rw [BitVec.lt_def, sub_toNat_of_lt hlt]; exact Nat.not_lt_of_le heps
  simp only [track, trackCase, hlast, if_neg hle, if_neg hnear, Option.getD_some]

end

/-- Settles O30: the WRAP case of the tracker; the count is a 64-bit number. -/
theorem trackerWrap : Obligations.TrackerWrap := by
  intro s r v hr hlast hlt heps
  exact ⟨s.rot.rev + 1, BitVec.toNat_add _ _, exec_rotStep_reduced hr (track_wrap hlast hlt heps)⟩

/-- Settles O31: the ANOM case of the tracker. -/
theorem trackerHold : Obligations.TrackerHold := fun _ _ _ hr hlast hlt heps =>
  exec_rotStep_reduced hr (track_hold hlast hlt heps)

/-! ### The extremes of `EPS` -/

/-- R189: without tolerance nothing is held. -/
theorem trackCase_zero_ne_anom (rot : Rot) (r : U16) : trackCase 0 rot r ≠ .anom := by
  intro hanom
  rcases track_cases 0 rot r with ⟨-, hcase, -⟩ | ⟨_, -, -, hcase, -⟩ | ⟨_, -, -, -, hcase, -⟩ | ⟨v, -, hlt, hnear, -⟩
  · cases hanom.symm.trans hcase
  · cases hanom.symm.trans hcase
  · cases hanom.symm.trans hcase
  · rw [BitVec.lt_def] at hlt
    rw [BitVec.le_def, sub_toNat_of_lt hlt] at hnear
    exact Nat.not_le_of_lt (Nat.sub_pos_of_lt hlt) hnear

section
variable {eps r v : U16} {rot : Rot} (hwf : rot.wf = true) (heps : 35999 ≤ eps.toNat)
include hwf heps

/-- R31: the rotation held is never more than 35999 above another one. -/
theorem sub_le_eps (hlast : rot.last = some v) : v.toNat - r.toNat ≤ eps.toNat := by
  have hv : v.toNat < rotMod := by simpa [Rot.wf, hlast] using hwf
  have hmod : rotMod = 36000 := rfl
  omega

/-- R189: the largest tolerances count nothing. -/
theorem trackCase_ne_wrap : trackCase eps rot r ≠ .wrap := by
  intro hwrap
  rcases track_cases eps rot r with ⟨-, hcase, -⟩ | ⟨_, -, -, hcase, -⟩ | ⟨v, hlast, hlt, hfar, -⟩ | ⟨_, -, -, -, hcase, -⟩
  · cases hwrap.symm.trans hcase
  · cases hwrap.symm.trans hcase
  · rw [BitVec.lt_def] at hlt
    rw [BitVec.lt_def, sub_toNat_of_lt hlt] at hfar
    exact Nat.not_le_of_lt hfar (sub_le_eps hwf heps hlast)
  · cases hwrap.symm.trans hcase

/-- R189: the largest tolerances report the running maximum. -/
theorem track_max (hlast : rot.last = some v) : (track eps rot r).2.toNat = max v.toNat r.toNat := by
  rcases Nat.lt_or_ge r.toNat v.toNat with hlt | hge
  · rw [track_hold hlast hlt (sub_le_eps hwf heps hlast), Nat.max_eq_left (Nat.le_of_lt hlt)]
  · rw [track_forward hlast hge, Nat.max_eq_right hge]

end

/-- Settles O33: by which cases of the tracker each extreme excludes. -/
theorem epsilonExtremes : Obligations.EpsilonExtremes := by
  intro eps rot r hwf _
  refine ⟨?_, fun heps => ?_⟩
  · rintro rfl
    exact trackCase_zero_ne_anom rot r
  · have hne := trackCase_ne_wrap (r := r) hwf heps
    exact ⟨hne, ((track_num eps rot r).1 hne).1, fun v => track_max hwf heps⟩

/-! ### Sequences of steps, R193 -/

theorem trackAll_cons (eps : U16) (rot : Rot) (r : U16) (rest : List U16) :
    trackAll eps rot (r :: rest) =
      ((trackAll eps (track eps rot r).1 rest).1,
        (trackCase eps rot r, (track eps rot r).2) :: (trackAll eps (track eps rot r).1 rest).2) := rfl

theorem trackAll_azimuth_lt (eps : U16) {rot : Rot} {rs : List U16} (hwf : rot.wf = true)
    (hrs : ∀ r ∈ rs, r.toNat < rotMod) : ∀ x ∈ (trackAll eps rot rs).2, x.2.toNat < rotMod := by
  induction rs generalizing rot with
  | nil => exact nofun
  | cons r rest ih =>
    obtain ⟨hr, hrest⟩ := List.forall_mem_cons.1 hrs
    obtain ⟨hwf', haz⟩ := track_wf (eps := eps) hwf hr
    rw [trackAll_cons]
    exact List.forall_mem_cons.2 ⟨haz, ih hwf' hrest⟩

/-- The first azimuth of a sequence is not below the rotation held before it, unless its step is a WRAP. -/
theorem trackAll_head_le {eps : U16} {rot : Rot} {rs : List U16} {v : U16} (hlast : rot.last = some v) :
    ∀ x ∈ (trackAll eps rot rs).2.head?, x.1 ≠ .wrap → v.toNat ≤ x.2.toNat := by
  cases rs with
  | nil => exact nofun
  | cons r rest =>
    intro x hx hne
    rw [trackAll_cons] at hx
    cases hx
    exact ((track_num eps rot r).1 hne).2 v hlast

theorem trackAll_isChain (eps : U16) (rot : Rot) (rs : List U16) :
    (trackAll eps rot rs).2.IsChain fun x y => y.1 ≠ .wrap → x.2.toNat ≤ y.2.toNat := by
  induction rs generalizing rot with
  | nil => exact .nil
  | cons r rest ih =>
    rw [trackAll_cons]
    exact List.isChain_cons.2 ⟨trackAll_head_le (track_num eps rot r).2.2, ih _⟩

/-- One step counts 1 in a WRAP and nothing otherwise. -/
theorem track_rev_toNat (eps : U16) (rot : Rot) (r : U16) :
    (track eps rot r).1.rev.toNat = (rot.rev.toNat + if trackCase eps rot r == .wrap then 1 else 0) % 2 ^ 64 := by
  obtain ⟨hother, hwrap, -⟩ := track_num eps rot r
  by_cases h : trackCase eps rot r = .wrap
  · rw [hwrap h, if_pos (beq_iff_eq.2 h)]
    exact BitVec.toNat_add _ _
  · rw [(hother h).1, if_neg (by rwa [beq_iff_eq]), Nat.add_zero, Nat.mod_eq_of_lt rot.rev.isLt]

theorem trackAll_rev_toNat (eps : U16) (rot : Rot) (rs : List U16) :
    (trackAll eps rot rs).1.rev.toNat =
      (rot.rev.toNat + ((trackAll eps rot rs).2.filter fun x => x.1 == .wrap).length) % 2 ^ 64 := by
  induction rs generalizing rot with
  | nil => exact (Nat.mod_eq_of_lt rot.rev.isLt).symm
  | cons r rest ih =>
    rw [trackAll_cons, ih, track_rev_toNat, Nat.mod_add_mod, List.filter_cons]
    split
    · rw [List.length_cons, Nat.add_assoc, Nat.add_comm 1]
    · rfl

theorem trackAll_last {eps : U16} {rot : Rot} {rs : List U16} {x : TrackCase × U16}
    (hx : (trackAll eps rot rs).2.getLast? = some x) : (trackAll eps rot rs).1.last = some x.2 := by
  induction rs generalizing rot x with
  | nil => cases hx
  | cons r rest ih =>
    rw [trackAll_cons] at hx ⊢
    cases rest with
    | nil =>
      cases hx
      exact (track_num eps rot r).2.2
    | cons r' rest' =>
      rw [trackAll_cons, List.getLast?_cons_cons] at hx
      exact ih hx

/-- Settles O32: the four properties, each by induction on the sequence. -/
theorem trackerSequence : Obligations.TrackerSequence := fun eps rot rs hwf hrs =>
  ⟨trackAll_azimuth_lt eps hwf hrs, trackAll_isChain eps rot rs, trackAll_rev_toNat eps rot rs, fun _ => trackAll_last⟩

end Sys2Proof.Machine
end

section
/-! The Point Assembler's single operations (spec/44_point_assembler.md R211 to R218). -/

namespace Sys2Proof.Machine

/-! ### Numbers -/

theorem physicalDistance_mul (d : U16) : physicalDistance d * 100 = (d.toNat : ℚ) :=
  div_mul_cancel₀ _ (by norm_num)

theorem timeIn_add (unit : TimeUnit) (m n : Nat) : timeIn unit (m + n) = timeIn unit m + timeIn unit n := by
  simp only [timeIn, Nat.cast_add, add_mul]

/-- R214: the default table gives a lower channel its own index after the 32 upper ones. -/
theorem laserIdOf_default_lower {cfg : Cfg} (hlaser : cfg.laserId = defaultLaserId) (c : ChanIx) :
    cfg.laserIdOf .lower c = BitVec.ofNat 8 (32 + c.val) := by
  simp [Cfg.laserIdOf, hlaser, defaultLaserId, PerBank.get]

theorem laserIdOf_default_toNat {cfg : Cfg} (hlaser : cfg.laserId = defaultLaserId) (k : Bank) (c : ChanIx) :
    (cfg.laserIdOf k c).toNat = match k with | .upper => c.val | .lower => 32 + c.val := by
  have hc := c.isLt
  cases k with
  | upper => rw [laserIdOf_default_upper hlaser, BitVec.toNat_ofNat, Nat.mod_eq_of_lt (by omega)]
  | lower => rw [laserIdOf_default_lower hlaser, BitVec.toNat_ofNat, Nat.mod_eq_of_lt (by omega)]

/-! ### Operations -/

section
variable {s : State} {t : Txn} (ht : s.txn = some t) (hlen : t.buf.len = pktLen)
include ht hlen

theorem exec_ptDist (b : BlockIx) (c : ChanIx) :
    exec (.ptDist b c) s = .next { s with answer := .half (t.buf.dist b c) } :=
  State.withPacket_of ht hlen

theorem exec_ptEmit (b : BlockIx) (c : ChanIx) :
    exec (.ptEmit b c) s =
      .next ((s.emit (emitAt s.cfg t.buf t.azCur b c)).returns (.emitted (emitAt s.cfg t.buf t.azCur b c))) :=
  State.withPacket_of ht hlen

variable {b : BlockIx} {k : Bank} (hbank : t.buf.bank b = some k) (c : ChanIx)
include hbank

theorem exec_ptAz :
    exec (.ptAz b c) s = .next { s with answer := .half (correctedAzimuth t.azCur (s.cfg.azCorrOf k c)) } :=
  State.withBlock_of ht hlen hbank

theorem exec_ptTime :
    exec (.ptTime b c) s =
      .next { s with answer := .time (s.cfg.delayOf b k c) (timestampOf t.buf.ts (s.cfg.delayOf b k c)) } :=
  State.withBlock_of ht hlen hbank

theorem exec_ptLaser : exec (.ptLaser b c) s = .next { s with answer := .laser c (s.cfg.laserIdOf k c) } :=
  State.withBlock_of ht hlen hbank

end

/-- The whole state after an emission in a transaction (R224). -/
theorem State.emit_of {s : State} {t : Txn} (ht : s.txn = some t) (p : Option Point) :
    s.emit p = { s with txn := some { t with out := t.out ++ p.toList } } := by
  simp only [State.emit, ht, Option.map_some]

theorem State.emit_none {s : State} {t : Txn} (ht : s.txn = some t) : s.emit none = s := by
  rw [State.emit_of ht, Option.toList_none, List.append_nil, ← ht]

/-- R216, R218: an invalid block and a distance of 0 emit nothing. -/
theorem emitAt_eq_none {cfg : Cfg} {buf : Buffer} {az : U16} {b : BlockIx} {c : ChanIx}
    (h : buf.dist b c = 0 ∨ buf.bank b = none) : emitAt cfg buf az b c = none := by
  rw [Option.eq_none_iff_forall_ne_some]
  intro p hp
  obtain ⟨k, hbank, hdist, -⟩ := emitAt_eq_some.1 hp
  rcases h with hzero | hnone
  · exact hdist hzero
  · cases hnone.symm.trans hbank

/-- Settles O34: the answer is the raw field, and a hundredth of it times 100 is exact. -/
theorem pointDistance : Obligations.PointDistance := fun _ t b c ht hlen =>
  ⟨exec_ptDist ht hlen b c, physicalDistance_mul (t.buf.dist b c)⟩

/-- Settles O35: the answer is the corrected azimuth, whose number is the Euclidean remainder. -/
theorem pointAzimuth : Obligations.PointAzimuth := fun _ _ _ c _ ht hlen hbank =>
  ⟨_, exec_ptAz ht hlen hbank c, correctedAzimuth_toNat _ _⟩

/-- Settles O36: 64 bits hold the sum, so it is exact. -/
theorem pointTime : Obligations.PointTime := by
  intro s t b c k ht hlen hbank
  have hsum := timestampOf_toNat t.buf.ts (s.cfg.delayOf b k c)
  exact ⟨_, exec_ptTime ht hlen hbank c, hsum, fun unit => hsum ▸ timeIn_add unit _ _⟩

/-- Settles O37: the answer is the table's entry, which the default table fixes. -/
theorem pointLaser : Obligations.PointLaser := fun _ _ _ c k ht hlen hbank =>
  ⟨exec_ptLaser ht hlen hbank c, fun hlaser => laserIdOf_default_toNat hlaser k c⟩

/-- Settles O38: what is emitted is nothing, or the record `pointAt`, whose fields are those of the component operations. -/
theorem pointEmission : Obligations.PointEmission := by
  intro s t b c ht hlen
  have hexec := exec_ptEmit ht hlen b c
  refine ⟨fun hnothing => ?_, fun k hbank hdist => ?_⟩
  · rw [hexec, emitAt_eq_none hnothing, State.emit_none ht, State.returns]
  · have hemit : emitAt s.cfg t.buf t.azCur b c = some (pointAt s.cfg t.buf t.azCur b k c) :=
      emitAt_eq_some.2 ⟨k, hbank, hdist, rfl⟩
    refine ⟨pointAt s.cfg t.buf t.azCur b k c, ?_, rfl, rfl, rfl, rfl, rfl, correctedAzimuth_toNat _ _, rfl,
      timestampOf_toNat _ _, rfl⟩
    rw [hexec, hemit, State.emit_of ht, State.returns, Option.toList_some]

end Sys2Proof.Machine
end

section
/-! `PKT.DECODE` as a whole (spec/44_point_assembler.md R220, R230, R231, spec/60_exceptions.md R271 to R273): its STATUS, its
points in walk order, the packets that emit nothing. -/

namespace Sys2Proof.Machine

/-! ### The STATUS -/

theorem transact_status_len (cfg : Cfg) (rot : Rot) (buf : Buffer) : (transact cfg rot buf).2.status.len = buf.len := by
  by_cases hlen : buf.len = pktLen
  · rw [transact_packet hlen]
    exact (headerStatus_len buf).1
  · rw [transact_malformed hlen]
    rfl

/-- Settles O39: the delivery is a good one. -/
theorem decodeIsTotal : Obligations.DecodeIsTotal := by
  intro s buf ht
  obtain ⟨hcount, hbound, -⟩ := (Delivery.wf_iff _).1 (transact_delivery_wf s.cfg s.rot buf)
  exact ⟨_, _, exec_pktDecode s buf ht, transact_status_len s.cfg s.rot buf, hcount, hbound⟩

/-- Settles O41: the malformed STATUS, field by field. -/
theorem malformedStatusAndState : Obligations.MalformedStatusAndState := fun _ _ => exec_pktDecode_malformed

/-- Settles O42: the fields of the header's STATUS. -/
theorem statusOfPacket : Obligations.StatusOfPacket := by
  intro s buf ht hlen
  have hexec := exec_pktDecode s buf ht
  rw [transact_packet hlen] at hexec
  obtain ⟨hstatusLen, hmalformed⟩ := headerStatus_len buf
  obtain ⟨hbank, hflag, hunknown, hcode⟩ := headerStatus_spec buf
  exact ⟨_, _, hexec, hstatusLen.trans hlen, hmalformed, hcode.trans buf.rmcode_eq, headerStatus_coarse buf, hunknown,
    hbank, hflag, headerStatus_baseTs buf, rfl⟩

/-! ### The walk -/

/-- `ROT` after the tracker step of block `b` (R190). -/
def rotAfter (cfg : Cfg) (buf : Buffer) (rot : Rot) (b : BlockIx) : Rot := (track cfg.eps rot (buf.reduced b)).1

/-- The records that block `b` gives in the packet's walk from `rot` (R220, R222). -/
def pointsOfBlock (cfg : Cfg) (buf : Buffer) (rot : Rot) (b : BlockIx) : List Point :=
  if buf.valid b then blockPoints cfg buf (azimuthOf cfg buf rot b) b else []

section
variable (cfg : Cfg) (buf : Buffer)

theorem walk_append (xs ys : List BlockIx) (rot : Rot) :
    walk cfg buf (xs ++ ys) rot =
      ((walk cfg buf ys (walk cfg buf xs rot).1).1,
        (walk cfg buf xs rot).2 ++ (walk cfg buf ys (walk cfg buf xs rot).1).2) := by
  induction xs generalizing rot with
  | nil => rfl
  | cons b rest ih =>
    rw [List.cons_append]
    cases hv : buf.valid b with
    | false => rw [walk_cons_invalid hv, walk_cons_invalid hv, ih]
    | true => rw [walk_cons_valid hv, walk_cons_valid hv, ih, List.append_assoc]

/-- R64, R190: the valid blocks step the tracker, in order. -/
theorem walk_rot (bs : List BlockIx) (rot : Rot) :
    (walk cfg buf bs rot).1 = (bs.filter buf.valid).foldl (rotAfter cfg buf) rot := by
  induction bs generalizing rot with
  | nil => rfl
  | cons b rest ih =>
    cases hv : buf.valid b with
    | false => rw [walk_cons_invalid hv, ih, List.filter_cons_of_neg (by rw [hv]; exact Bool.false_ne_true)]
    | true => rw [walk_cons_valid hv, ih, List.filter_cons_of_pos hv, List.foldl_cons, rotAfter]

theorem filter_lt_finRange (n : Fin 13) :
    ((List.finRange 12).filter fun b : BlockIx => decide (b.val < n.val)) = (List.finRange 12).take n.val := by
  revert n
  decide

theorem rotBefore_eq_walk {n : Nat} (hn : n ≤ 12) (rot : Rot) :
    rotBefore cfg buf rot n = (walk cfg buf ((List.finRange 12).take n) rot).1 := by
  have htake := filter_lt_finRange ⟨n, Nat.lt_succ_of_le hn⟩
  simp only [rotBefore, walk_rot, ← htake, List.filter_filter, Bool.and_comm]
  rfl

theorem walk_singleton_points (b : BlockIx) (rot : Rot) :
    (walk cfg buf [b] rot).2 =
      if buf.valid b then blockPoints cfg buf (track cfg.eps rot (buf.reduced b)).2 b else [] := by
  cases hv : buf.valid b with
  | false => rw [walk_cons_invalid hv]; rfl
  | true => rw [walk_cons_valid hv, walk_nil, List.append_nil]; rfl

/-- R220: block after block, each at the azimuth of its own step. -/
theorem walk_take_points {n : Nat} (hn : n ≤ 12) (rot : Rot) :
    (walk cfg buf ((List.finRange 12).take n) rot).2 =
      ((List.finRange 12).take n).flatMap (pointsOfBlock cfg buf rot) := by
  induction n with
  | zero => rfl
  | succ n ih =>
    have hlt : n < (List.finRange 12).length := by rw [List.length_finRange]; omega
    have hprev := Nat.le_of_succ_le hn
    rw [List.take_succ_eq_append_getElem hlt, walk_append, ih hprev, List.flatMap_append, List.flatMap_singleton,
      ← rotBefore_eq_walk cfg buf hprev, walk_singleton_points, List.getElem_finRange]
    rfl

end

theorem walk_packet (cfg : Cfg) (buf : Buffer) (rot : Rot) :
    walk cfg buf (List.finRange 12) rot =
      (rotBefore cfg buf rot 12, (List.finRange 12).flatMap (pointsOfBlock cfg buf rot)) :=
  Prod.ext (rotBefore_eq_walk cfg buf (Nat.le_refl 12) rot).symm (walk_take_points cfg buf (Nat.le_refl 12) rot)

/-- Settles O43: the closed form of the walk over all twelve blocks. -/
theorem pointsInWalkOrder : Obligations.PointsInWalkOrder := by
  intro s buf ht hlen
  have hexec := exec_pktDecode s buf ht
  rw [transact_packet hlen, walk_packet] at hexec
  exact ⟨_, hexec, rfl⟩

/-! ### Packets that emit nothing -/

/-- Where every valid block holds only distances of 0, no walk emits. -/
theorem walk_points_eq_nil {cfg : Cfg} {buf : Buffer} (hzero : ∀ b c, buf.valid b = true → buf.dist b c = 0)
    (bs : List BlockIx) (rot : Rot) : (walk cfg buf bs rot).2 = [] := by
  rw [List.eq_nil_iff_forall_not_mem]
  intro p hp
  obtain ⟨b, -, az, c, hemit⟩ := walk_mem hp
  obtain ⟨k, hbank, hdist, -⟩ := emitAt_eq_some.1 hemit
  exact hdist (hzero b c ((valid_iff buf b).2 ⟨k, hbank⟩))

theorem trackAll_rot (eps : U16) (rot : Rot) (rs : List U16) :
    (trackAll eps rot rs).1 = rs.foldl (fun rot r => (track eps rot r).1) rot := by
  induction rs generalizing rot with
  | nil => rfl
  | cons r rest ih => rw [trackAll_cons, ih, List.foldl_cons]

theorem walk_rot_eq_trackAll (cfg : Cfg) (buf : Buffer) (bs : List BlockIx) (rot : Rot) :
    (walk cfg buf bs rot).1 = (trackAll cfg.eps rot ((bs.filter buf.valid).map buf.reduced)).1 := by
  rw [walk_rot, trackAll_rot, List.foldl_map]
  rfl

theorem badBank_eq_zero_iff (buf : Buffer) : (headerStatus buf).badBank = 0 ↔ ∀ b, buf.valid b = true := by
  obtain ⟨hbits, -⟩ := headerStatus_spec buf
  constructor
  · intro hzero b
    have hbit := hbits b
    rw [hzero] at hbit
    simpa using hbit
  · intro hvalid
    refine BitVec.eq_of_getLsbD_eq fun i hi => ?_
    rw [hbits ⟨i, hi⟩, hvalid]
    simp

/-- R272: a packet is error-free when its return mode is known and every block valid. -/
theorem headerStatus_errorFree_iff (buf : Buffer) (n : Nat) :
    ({ headerStatus buf with nPoints := n } : Status).errorFree = true ↔
      buf.coarse ≠ .unknown ∧ ∀ b, buf.valid b = true := by
  obtain ⟨-, hmalformed⟩ := headerStatus_len buf
  obtain ⟨-, -, hunknown, -⟩ := headerStatus_spec buf
  rw [Status.errorFree, hmalformed, Bool.and_eq_true, decide_eq_true_iff, badBank_eq_zero_iff, ne_eq, ← hunknown]
  simp

/-- Settles O48: in both cases no walk emits; `ROT` is the tracker's over the valid blocks, of which there are none in the
first case. -/
theorem packetsThatEmitNothing : Obligations.PacketsThatEmitNothing := by
  intro s buf ht hlen
  have hexec := exec_pktDecode s buf ht
  rw [transact_packet hlen, walk_rot_eq_trackAll] at hexec
  refine ⟨fun hinvalid => ?_, fun hzero => ?_⟩
  · have hnone : (List.finRange 12).filter buf.valid = [] :=
      List.filter_eq_nil_iff.2 fun b _ => by rw [hinvalid b]; exact Bool.false_ne_true
    have hzero : ∀ b c, buf.valid b = true → buf.dist b c = 0 := fun b _ hv => absurd ((hinvalid b).symm.trans hv) nofun
    rw [hnone] at hexec
    exact ⟨_, hexec, walk_points_eq_nil hzero _ _, (headerStatus_len buf).2⟩
  · exact ⟨_, hexec, walk_points_eq_nil hzero _ _, headerStatus_errorFree_iff buf _⟩

end Sys2Proof.Machine
end

section
/-! What `PKT.DECODE` reads of a packet (spec/40_packet_layout.md R117, spec/41_block_decoder.md R130, spec/60_exceptions.md R273):
neither the factory byte, nor the rotation and the units of an invalid block. -/

namespace Sys2Proof.Machine

/-- The two packets agree in every field that `PKT.DECODE` reads: flags, return-mode code, timestamp, and the rotation and the
units of each valid block. -/
structure SameReads (buf buf' : Buffer) : Prop where
  len    : buf.len = buf'.len
  flag   : ∀ b, buf.flag b = buf'.flag b
  rmcode : buf.rmcode = buf'.rmcode
  ts     : buf.ts = buf'.ts
  rot    : ∀ b, buf.valid b = true → buf.rot b = buf'.rot b
  dist   : ∀ b c, buf.valid b = true → buf.dist b c = buf'.dist b c
  refl   : ∀ b c, buf.valid b = true → buf.refl b c = buf'.refl b c

/-- A partner by the role the tag rule uses is a valid block (R157). -/
theorem valid_of_role_partner {buf : Buffer} {b p : BlockIx} (h : partnerOf (buf.role b) b = some p) :
    buf.valid p = true := by
  cases hcoarse : buf.coarse with
  | dual =>
    rw [Buffer.role, hcoarse] at h
    exact (valid_of_partner h).2
  | strongest | last | unknown =>
    rw [Buffer.role, hcoarse] at h
    cases h

namespace SameReads

variable {buf buf' : Buffer} (h : SameReads buf buf')
include h

theorem bank (b : BlockIx) : buf.bank b = buf'.bank b := by rw [Buffer.bank, Buffer.bank, h.flag]

theorem valid (b : BlockIx) : buf.valid b = buf'.valid b := by rw [Buffer.valid, Buffer.valid, h.bank]

theorem coarse : buf.coarse = buf'.coarse := by rw [Buffer.coarse, Buffer.coarse, h.rmcode]

theorem headerStatus : headerStatus buf = headerStatus buf' := by
  have hbank : bankError buf = bankError buf' := funext fun b => by rw [bankError, bankError, h.bank, h.flag]
  have hmode : modeError buf = modeError buf' := by rw [modeError, modeError, h.coarse, h.rmcode]
  rw [Machine.headerStatus, Machine.headerStatus, packetErrors, packetErrors, hbank, hmode, h.len, h.ts, h.rmcode, h.coarse]

/-- R156: pairing looks at an invalid block's flag alone. -/
theorem pairKey (b : BlockIx) : buf.pairKey b = buf'.pairKey b := by
  cases hbank : buf.bank b with
  | none => rw [Buffer.pairKey, Buffer.pairKey, ← h.bank, hbank, Option.map_none, Option.map_none]
  | some k =>
    have hrot := h.rot b ((valid_iff buf b).2 ⟨k, hbank⟩)
    rw [Buffer.pairKey, Buffer.pairKey, ← h.bank, Buffer.reduced, Buffer.reduced, hrot]

theorem role (b : BlockIx) : buf.role b = buf'.role b := by
  have hkeys : buf.pairKey = buf'.pairKey := funext h.pairKey
  have hroles : buf.roles = buf'.roles := by rw [Buffer.roles, Buffer.roles, hkeys]
  rw [Buffer.role, Buffer.role, h.coarse, hroles]

/-- R157: a partner is a valid block, so its distances are the same. -/
theorem partnerDist (b : BlockIx) (c : ChanIx) :
    buf.partnerDist (buf.role b) b c = buf'.partnerDist (buf.role b) b c := by
  cases hpartner : partnerOf (buf.role b) b with
  | none => rw [Buffer.partnerDist, Buffer.partnerDist, hpartner]
  | some p =>
    rw [Buffer.partnerDist, Buffer.partnerDist, hpartner]
    exact h.dist p c (valid_of_role_partner hpartner)

section
variable {b : BlockIx} (hv : buf.valid b = true)
include hv

theorem tag (c : ChanIx) : buf.tag b c = buf'.tag b c := by
  rw [Buffer.tag, Buffer.tag, Buffer.tagWith, Buffer.tagWith, h.partnerDist, h.dist b c hv, h.coarse, h.role]

theorem emitAt (cfg : Cfg) (az : U16) (c : ChanIx) : emitAt cfg buf az b c = emitAt cfg buf' az b c := by
  have hpoint (k : Bank) : pointAt cfg buf az b k c = pointAt cfg buf' az b k c := by
    rw [pointAt, pointAt, h.dist b c hv, h.refl b c hv, h.ts, h.tag hv]
  simp only [Machine.emitAt, h.bank, h.dist b c hv, hpoint]

theorem blockPoints (cfg : Cfg) (az : U16) : blockPoints cfg buf az b = blockPoints cfg buf' az b := by
  rw [Machine.blockPoints, Machine.blockPoints, funext (h.emitAt hv cfg az)]

theorem reduced : buf.reduced b = buf'.reduced b := by rw [Buffer.reduced, Buffer.reduced, h.rot b hv]

end

theorem walk (cfg : Cfg) (bs : List BlockIx) (rot : Rot) : walk cfg buf bs rot = walk cfg buf' bs rot := by
  induction bs generalizing rot with
  | nil => rfl
  | cons b rest ih =>
    have hvalid := h.valid b
    cases hv : buf.valid b with
    | false => rw [walk_cons_invalid hv, walk_cons_invalid (hvalid.symm.trans hv), ih]
    | true =>
      rw [walk_cons_valid hv, walk_cons_valid (hvalid.symm.trans hv), ← h.reduced hv, ih, h.blockPoints hv]

theorem transact (cfg : Cfg) (rot : Rot) : transact cfg rot buf = transact cfg rot buf' := by
  rw [Machine.transact, Machine.transact, h.len, h.walk, h.headerStatus]

/-- Packets that agree in what is read are decoded to the same next state. -/
theorem exec_pktDecode {s : State} (ht : s.txn = none) : exec (.pktDecode buf) s = exec (.pktDecode buf') s := by
  rw [Machine.exec_pktDecode s buf ht, Machine.exec_pktDecode s buf' ht, h.transact]

end SameReads

/-- R117, R61: no field that is read stands at the factory byte. -/
theorem sameReads_of_factory {buf buf' : Buffer} (hlen : buf.len = buf'.len)
    (hsame : ∀ o, o ≠ 1205 → buf.byte o = buf'.byte o) : SameReads buf buf' := by
  have hgeo : SameGeometry buf buf' := sameGeometry_of_bytes fun o ho => hsame o (by omega)
  exact {
    len := hlen
    flag := hgeo.flag
    rmcode := Buffer.rmcode_congr (hsame 1204 (by decide))
    ts := hgeo.ts
    rot := fun b _ => hgeo.rot b
    dist := fun b c _ => hgeo.dist b c
    refl := fun b c _ => hgeo.refl b c }

/-- R130, R61: of an invalid block only the flag is read, and no other field stands among its bytes. -/
theorem sameReads_of_invalid_block {buf buf' : Buffer} {b : BlockIx} (hlen : buf.len = buf'.len)
    (hinvalid : buf.valid b = false)
    (hsame : ∀ o, ¬ (100 * b.val + 2 ≤ o ∧ o < 100 * b.val + 100) → buf.byte o = buf'.byte o) : SameReads buf buf' := by
  have hb := b.isLt
  have hother (x : BlockIx) (hx : buf.valid x = true) (o : Nat) (hlo : 100 * x.val ≤ o) (hhi : o < 100 * x.val + 100) :
      buf.byte o = buf'.byte o := by
    have hne : x.val ≠ b.val := fun heq => by rw [Fin.ext heq, hinvalid] at hx; cases hx
    exact hsame o (by omega)
  exact {
    len := hlen
    flag := fun x => Buffer.flag_congr fun o hlo hhi => hsame o (by omega)
    rmcode := Buffer.rmcode_congr (hsame 1204 (by omega))
    ts := Buffer.ts_congr fun o hlo _ => hsame o (by omega)
    rot := fun x hx => Buffer.rot_congr fun o hlo hhi => hother x hx o (by omega) (by omega)
    dist := fun x c hx => Buffer.dist_congr fun o hlo hhi => hother x hx o (by omega) (by omega)
    refl := fun x c hx => Buffer.refl_congr (hother x hx _ (by omega) (by omega)) }

/-- Settles O46: two such packets agree in everything that is read. -/
theorem factoryByteIsIgnored : Obligations.FactoryByteIsIgnored := fun _ _ _ ht hlen hlen' hsame =>
  (sameReads_of_factory (hlen'.trans hlen.symm) hsame).exec_pktDecode ht

/-- Settles O47: the flag makes the block invalid in both packets. -/
theorem badBlockIsNotRead : Obligations.BadBlockIsNotRead := by
  intro s buf buf' b ht hlen hlen' hupper hlower hsame
  have hinvalid : buf.valid b = false := by rw [Buffer.valid, bank_of_flag_ne hupper hlower, Option.isSome_none]
  exact ((sameReads_of_invalid_block (hlen.trans hlen'.symm) hinvalid fun o ho => (hsame o ho).symm).exec_pktDecode ht).symm

end Sys2Proof.Machine
end

section
/-! `PKT.DECODE` as the composition of its internal operations (spec/44_point_assembler.md R230): performed one at a time in a
transaction, they pass through states that agree with a prescribed `ROT` and transaction. -/

namespace Sys2Proof.Machine

/-- The operations `ops` complete from `s`; they leave the configuration alone, and `rot` and `t` as `ROT` and transaction. -/
def RunsTo (ops : List Instr) (s : State) (rot : Rot) (t : Txn) : Prop :=
  ∃ u, execAll ops s = .next u ∧ u.rot = rot ∧ u.cfg = s.cfg ∧ u.txn = some t

section
variable {s u : State} {rot : Rot} {t : Txn}

theorem execAll_cons_of_next {i : Instr} (h : exec i s = .next u) (rest : List Instr) :
    execAll (i :: rest) s = execAll rest u := by
  rw [execAll, h]

theorem RunsTo.nil (ht : s.txn = some t) : RunsTo [] s s.rot t := ⟨s, rfl, rfl, rfl, ht⟩

theorem RunsTo.cons {i : Instr} {rest : List Instr} (h : exec i s = .next u) (hcfg : u.cfg = s.cfg)
    (hrest : RunsTo rest u rot t) : RunsTo (i :: rest) s rot t := by
  obtain ⟨v, hexec, hrot, hcfg', htxn⟩ := hrest
  exact ⟨v, (execAll_cons_of_next h rest).trans hexec, hrot, hcfg'.trans hcfg, htxn⟩

theorem execAll_append {xs : List Instr} (h : execAll xs s = .next u) (ys : List Instr) :
    execAll (xs ++ ys) s = execAll ys u := by
  induction xs generalizing s with
  | nil => cases h; rfl
  | cons i rest ih =>
    cases hi : exec i s with
    | next v =>
      rw [execAll_cons_of_next hi] at h
      rw [List.cons_append, execAll_cons_of_next hi, ih h]
    | fault e => rw [execAll, hi] at h; cases h
    | refused e => rw [execAll, hi] at h; cases h

/-- Runs one after another; the second may leave a transaction that depends on a parameter. -/
theorem RunsTo.append {α : Type} {xs ys : List Instr} {rot' : Rot} {t' : α → Txn} (hxs : RunsTo xs s rot t)
    (hys : ∀ u, u.rot = rot → u.cfg = s.cfg → u.txn = some t → ∃ x, RunsTo ys u rot' (t' x)) :
    ∃ x, RunsTo (xs ++ ys) s rot' (t' x) := by
  obtain ⟨u, hexec, hrot, hcfg, htxn⟩ := hxs
  obtain ⟨x, v, hexec', hrot', hcfg', htxn'⟩ := hys u hrot hcfg htxn
  exact ⟨x, v, (execAll_append hexec ys).trans hexec', hrot', hcfg'.trans hcfg, htxn'⟩

end

/-! ### The header: return mode and banks -/

/-- A STATUS with errors recorded, one after another. -/
def Status.recordAll (es : List Error) (st : Status) : Status := es.foldl (fun st e => st.record e) st

theorem Status.recordAll_append (xs ys : List Error) (st : Status) :
    st.recordAll (xs ++ ys) = (st.recordAll xs).recordAll ys :=
  List.foldl_append

theorem State.raise_txn_of {s : State} {t : Txn} (ht : s.txn = some t) (e : Option Error) :
    (s.raise e).txn = some { t with st := t.st.recordAll e.toList } := by
  cases e with
  | none => exact ht
  | some e => rw [State.raise_txn_some, ht]; rfl

theorem filterMap_cons_toList {α β : Type} (f : α → Option β) (x : α) (xs : List α) :
    (x :: xs).filterMap f = (f x).toList ++ xs.filterMap f := by
  cases h : f x <;> simp [h]

section
variable {s : State} {t : Txn} (ht : s.txn = some t) (hlen : t.buf.len = pktLen)
include ht hlen

theorem runsTo_blkBanks (bs : List BlockIx) :
    RunsTo (bs.map Instr.blkBank) s s.rot { t with st := t.st.recordAll (bs.filterMap (bankError t.buf)) } := by
  induction bs generalizing s t with
  | nil => exact .nil ht
  | cons b rest ih =>
    have hrest := ih (s := (s.raise (bankError t.buf b)).returns (.bank (t.buf.bank b))) (State.raise_txn_of ht _) hlen
    rw [State.returns_rot, State.raise_rot, ← Status.recordAll_append, ← filterMap_cons_toList] at hrest
    exact .cons (exec_blkBank ht hlen) (State.raise_cfg s _) hrest

theorem runsTo_modeAndBanks :
    RunsTo (.rmResolve :: (List.finRange 12).map Instr.blkBank) s s.rot
      { t with st := t.st.recordAll (packetErrors t.buf) } := by
  have hbanks := runsTo_blkBanks (s := (s.raise (modeError t.buf)).returns (.coarse t.buf.coarse))
    (State.raise_txn_of ht _) hlen (List.finRange 12)
  rw [State.returns_rot, State.raise_rot, ← Status.recordAll_append] at hbanks
  exact .cons (exec_rmResolve ht hlen) (State.raise_cfg s _) hbanks

/-- Steps 1 to 3 of R230 record the packet's errors and nothing else. -/
theorem runsTo_header :
    RunsTo ([.pktChecklen t.buf.len, .rmResolve] ++ (List.finRange 12).map Instr.blkBank) s s.rot
      { t with st := t.st.recordAll (packetErrors t.buf) } :=
  .cons (exec_pktChecklen_pass hlen s) rfl (runsTo_modeAndBanks (s := { s with answer := .lengthOk true }) ht hlen)

/-! ### The walk -/

theorem runsTo_ptEmits (b : BlockIx) (cs : List ChanIx) :
    RunsTo (cs.map (Instr.ptEmit b)) s s.rot
      { t with out := t.out ++ cs.filterMap (emitAt s.cfg t.buf t.azCur b) } := by
  induction cs generalizing s t with
  | nil =>
    rw [List.filterMap_nil, List.append_nil]
    exact .nil ht
  | cons c rest ih =>
    have hemit : (s.emit (emitAt s.cfg t.buf t.azCur b c)).txn =
        some { t with out := t.out ++ (emitAt s.cfg t.buf t.azCur b c).toList } := by rw [State.emit_of ht]
    have hrest := ih (s := (s.emit (emitAt s.cfg t.buf t.azCur b c)).returns
      (.emitted (emitAt s.cfg t.buf t.azCur b c))) hemit hlen
    rw [List.append_assoc, State.returns_cfg, State.emit_cfg, ← filterMap_cons_toList] at hrest
    exact .cons (exec_ptEmit ht hlen b c) rfl hrest

theorem runsTo_block {b : BlockIx} (hv : t.buf.valid b = true) :
    RunsTo (blockOperations t.buf b) s (track s.cfg.eps s.rot (t.buf.reduced b)).1
      { t with
        azCur := (track s.cfg.eps s.rot (t.buf.reduced b)).2
        out := t.out ++ blockPoints s.cfg t.buf (track s.cfg.eps s.rot (t.buf.reduced b)).2 b } := by
  have hstep := exec_rotStep_reduced (s := s) (r := t.buf.reduced b) (reduceRotation_lt _) rfl
  have hemits := runsTo_ptEmits (s := { s with
      rot := (track s.cfg.eps s.rot (t.buf.reduced b)).1
      txn := s.txn.map fun t' => { t' with azCur := (track s.cfg.eps s.rot (t.buf.reduced b)).2 }
      answer := .half (track s.cfg.eps s.rot (t.buf.reduced b)).2 }) (congrArg (Option.map _) ht) hlen b (List.finRange 32)
  rw [blockOperations, if_pos hv]
  exact .cons hstep rfl hemits

/-- Step 5 of R230 over the listed blocks is the walk. -/
theorem runsTo_walk (bs : List BlockIx) :
    ∃ az, RunsTo (bs.flatMap (blockOperations t.buf)) s (walk s.cfg t.buf bs s.rot).1
      { t with azCur := az, out := t.out ++ (walk s.cfg t.buf bs s.rot).2 } := by
  induction bs generalizing s t with
  | nil =>
    refine ⟨t.azCur, ?_⟩
    rw [walk_nil, List.append_nil]
    exact .nil ht
  | cons b rest ih =>
    rw [List.flatMap_cons]
    cases hv : t.buf.valid b with
    | false =>
      have hno : blockOperations t.buf b = [] := if_neg (by rw [hv]; exact Bool.false_ne_true)
      rw [hno, List.nil_append, walk_cons_invalid hv]
      exact ih ht hlen
    | true =>
      refine (runsTo_block ht hlen hv).append fun u hrot hcfg htxn => ?_
      have hrest := ih htxn hlen
      rw [hrot, hcfg] at hrest
      rw [walk_cons_valid hv, ← List.append_assoc]
      exact hrest

/-- The operations of R230 on a packet are the walk, with the packet's errors recorded. -/
theorem runsTo_packetOperations :
    ∃ az, RunsTo (packetOperations t.buf) s (walk s.cfg t.buf (List.finRange 12) s.rot).1
      { t with
        st := t.st.recordAll (packetErrors t.buf)
        azCur := az
        out := t.out ++ (walk s.cfg t.buf (List.finRange 12) s.rot).2 } := by
  refine (runsTo_header ht hlen).append fun u hrot hcfg htxn => ?_
  have hwalk := runsTo_walk htxn hlen (List.finRange 12)
  rw [hrot, hcfg] at hwalk
  exact hwalk

end

/-! ### The two STATUS records -/

/-- A STATUS with the three fields of the header that `PKT.DECODE` fills itself (R230). -/
def Status.withHeader (buf : Buffer) (st : Status) : Status :=
  { st with baseTs := buf.ts, rmCode := buf.rmcode, coarse := buf.coarse }

theorem bankError_ne_mode (buf : Buffer) (b : BlockIx) (k : Byte) : bankError buf b ≠ some (.unknownReturnMode k) := by
  unfold bankError
  split <;> exact nofun

/-- R151: the code recorded is the packet's own. -/
theorem code_of_mem_packetErrors {buf : Buffer} {k : Byte} (h : Error.unknownReturnMode k ∈ packetErrors buf) :
    k = buf.rmcode := by
  rcases List.mem_append.1 h with hmode | hbank
  · rw [Option.mem_toList, modeError] at hmode
    split at hmode <;> cases hmode
    rfl
  · obtain ⟨b, -, hb⟩ := List.mem_filterMap.1 hbank
    exact absurd hb (bankError_ne_mode buf b k)

/-- Filling the header before or after recording errors is the same, if the code recorded is the packet's own. -/
theorem Status.recordAll_withHeader {buf : Buffer} {es : List Error}
    (hcode : ∀ k, Error.unknownReturnMode k ∈ es → k = buf.rmcode) (st : Status) :
    (st.withHeader buf).recordAll es = (st.recordAll es).withHeader buf := by
  induction es generalizing st with
  | nil => rfl
  | cons e rest ih =>
    have hrecord : (st.withHeader buf).record e = (st.record e).withHeader buf := by
      cases e with
      | malformedPacket len => rfl
      | unknownBankFlag b f => rfl
      | unknownReturnMode k =>
        rw [hcode k List.mem_cons_self]
        rfl
    have hrest := ih (fun k hk => hcode k (List.mem_cons_of_mem _ hk)) (st.record e)
    rw [← hrecord] at hrest
    exact hrest

theorem headerStatus_eq_withHeader (buf : Buffer) :
    headerStatus buf = ((Status.start buf.len).recordAll (packetErrors buf)).withHeader buf :=
  Status.recordAll_withHeader (fun _ => code_of_mem_packetErrors) (Status.start buf.len)

/-- Settles O44: the single operations end where the walk does, and their STATUS lacks only the fields filled at once. -/
theorem decodeIsTheCompositionOfItsSteps : Obligations.DecodeIsTheCompositionOfItsSteps := by
  intro s u buf hs hu hrot hcfg hlen
  obtain ⟨az, s', hrun, hrot', -, htxn'⟩ := runsTo_packetOperations hs hlen
  have hexec := exec_pktDecode u buf hu
  rw [transact_packet hlen, headerStatus_eq_withHeader, ← hrot, ← hcfg] at hexec
  exact ⟨s', _, _, _, hrun, htxn', hexec, rfl, hrot', rfl, rfl⟩

end Sys2Proof.Machine
end
